-- ==== Sys2Proof/Word.lean ====
section
/-!
DEFINITION. The widths of the core (spec 00_scope.md R6, R8, R9): bytes, 16-bit words, register selectors,
and the two cuts of a natural number to a width.
-/

namespace Sys2Proof

/-- A memory byte or a general register: 8 bits, unsigned (R6, R8). -/
abbrev Byte := BitVec 8

/-- `I`, `pc`, a stack entry or an opcode: 16 bits, unsigned (R6). -/
abbrev Word := BitVec 16

/-- A 12-bit address immediate `nnn` (R71). -/
abbrev Addr12 := BitVec 12

/-- A register selector `x` or `y`: every nibble names a register (R20). -/
abbrev Reg := Fin 16

/-- The flag register `VF` is `V[15]` (R10). -/
abbrev VF : Reg := 15

/-- `trunc_8(v) = v mod 256` (R9). -/
def trunc8 (n : Nat) : Byte := BitVec.ofNat 8 n

/-- `trunc_16(v) = v mod 65536` (R9). -/
def trunc16 (n : Nat) : Word := BitVec.ofNat 16 n

end Sys2Proof
end

