-- ==== Sys2Proof/Syntax.lean ====
section
/-!
DEFINITION. The instruction set: one constructor for each of the 34 rows of the opcode map (spec 30_encoding.md R85),
in the table's order, with the operands of its format (R72).
-/

namespace Sys2Proof

/-- An instruction of R85. Operand types hold exactly the values of the fields of R71, so no term is out of range. -/
inductive Instr where
  /-- `00E0`: CLS. -/
  | cls
  /-- `00EE`: RET. -/
  | ret
  /-- `1NNN`: JP nnn. -/
  | jp (nnn : Addr12)
  /-- `2NNN`: CALL nnn. -/
  | call (nnn : Addr12)
  /-- `3XKK`: SE Vx, kk. -/
  | seVxKk (x : Reg) (kk : Byte)
  /-- `4XKK`: SNE Vx, kk. -/
  | sneVxKk (x : Reg) (kk : Byte)
  /-- `5XY0`: SE Vx, Vy. -/
  | seVxVy (x y : Reg)
  /-- `6XKK`: LD Vx, kk. -/
  | ldVxKk (x : Reg) (kk : Byte)
  /-- `7XKK`: ADD Vx, kk. -/
  | addVxKk (x : Reg) (kk : Byte)
  /-- `8XY0`: LD Vx, Vy. -/
  | ldVxVy (x y : Reg)
  /-- `8XY1`: OR Vx, Vy. -/
  | orVxVy (x y : Reg)
  /-- `8XY2`: AND Vx, Vy. -/
  | andVxVy (x y : Reg)
  /-- `8XY3`: XOR Vx, Vy. -/
  | xorVxVy (x y : Reg)
  /-- `8XY4`: ADD Vx, Vy. -/
  | addVxVy (x y : Reg)
  /-- `8XY5`: SUB Vx, Vy. -/
  | sub (x y : Reg)
  /-- `8XY6`: SHR Vx, Vy. The `y` field is read only when `SHIFT_SOURCE = vy`. -/
  | shr (x y : Reg)
  /-- `8XY7`: SUBN Vx, Vy. -/
  | subn (x y : Reg)
  /-- `8XYE`: SHL Vx, Vy. The `y` field is read only when `SHIFT_SOURCE = vy`. -/
  | shl (x y : Reg)
  /-- `9XY0`: SNE Vx, Vy. -/
  | sneVxVy (x y : Reg)
  /-- `ANNN`: LD I, nnn. -/
  | ldINnn (nnn : Addr12)
  /-- `BNNN`: JP V0, nnn. -/
  | jpV0Nnn (nnn : Addr12)
  /-- `CXKK`: RND Vx, kk. -/
  | rnd (x : Reg) (kk : Byte)
  /-- `DXYN`: DRW Vx, Vy, n, where `n` is a row count 0..15. -/
  | drw (x y : Reg) (n : Fin 16)
  /-- `EX9E`: SKP Vx. -/
  | skp (x : Reg)
  /-- `EXA1`: SKNP Vx. -/
  | sknp (x : Reg)
  /-- `FX07`: LD Vx, DT. -/
  | ldVxDt (x : Reg)
  /-- `FX0A`: LD Vx, K. -/
  | ldVxK (x : Reg)
  /-- `FX15`: LD DT, Vx. -/
  | ldDtVx (x : Reg)
  /-- `FX18`: LD ST, Vx. -/
  | ldStVx (x : Reg)
  /-- `FX1E`: ADD I, Vx. -/
  | addIVx (x : Reg)
  /-- `FX29`: LD F, Vx. -/
  | ldFVx (x : Reg)
  /-- `FX33`: LD B, Vx. -/
  | ldBVx (x : Reg)
  /-- `FX55`: LD [I], Vx. -/
  | ldMemIVx (x : Reg)
  /-- `FX65`: LD Vx, [I]. -/
  | ldVxMemI (x : Reg)
  deriving DecidableEq, Repr

end Sys2Proof
end

