-- ==== Sys2Proof/Decode.lean ====
section
/-!
DEFINITION. Decoding and encoding (spec 30_encoding.md). `decodeWord` is the Decode function of R75, total on every
16-bit word (none = `Unknown`); `decodeBytes` reads the big-endian bytes of R70 and rejects by name; `encode` writes the word of an
instruction from the formats of R72; `rows` is the opcode map of R85.
-/

namespace Sys2Proof

/-! ### Fields (R71) -/

/-- The family `a`, bits 15..12. -/
def fieldA (w : Word) : BitVec 4 := w.extractLsb' 12 4

/-- The selector `x`, bits 11..8. -/
def fieldX (w : Word) : Reg := (w.extractLsb' 8 4).toFin

/-- The selector `y`, bits 7..4. -/
def fieldY (w : Word) : Reg := (w.extractLsb' 4 4).toFin

/-- The nibble `n`, bits 3..0. -/
def fieldN (w : Word) : Fin 16 := (w.extractLsb' 0 4).toFin

/-- The byte `kk`, bits 7..0. -/
def fieldKK (w : Word) : Byte := w.extractLsb' 0 8

/-- The address `nnn`, bits 11..0. -/
def fieldNNN (w : Word) : Addr12 := w.extractLsb' 0 12

/-! ### Decoding -/

/-- Why the bytes at an address are no instruction. -/
inductive DecodeError where
  /-- `Unknown` (R76): no instruction has this word. -/
  | unknown (opcode : Word)
  /-- Fewer than the two bytes of an instruction (R70). -/
  | truncated
  deriving DecidableEq, Repr

/-- Family 8: the low nibble is the sub-opcode (R75). -/
def decodeFamily8 (w : Word) : Option Instr :=
  match (fieldN w).val with
  | 0x0 => some (.ldVxVy (fieldX w) (fieldY w))
  | 0x1 => some (.orVxVy (fieldX w) (fieldY w))
  | 0x2 => some (.andVxVy (fieldX w) (fieldY w))
  | 0x3 => some (.xorVxVy (fieldX w) (fieldY w))
  | 0x4 => some (.addVxVy (fieldX w) (fieldY w))
  | 0x5 => some (.sub (fieldX w) (fieldY w))
  | 0x6 => some (.shr (fieldX w) (fieldY w))
  | 0x7 => some (.subn (fieldX w) (fieldY w))
  | 0xE => some (.shl (fieldX w) (fieldY w))
  | _ => none

/-- Family E: the low byte is the sub-opcode (R75). -/
def decodeFamilyE (w : Word) : Option Instr :=
  match (fieldKK w).toNat with
  | 0x9E => some (.skp (fieldX w))
  | 0xA1 => some (.sknp (fieldX w))
  | _ => none

/-- Family F: the low byte is the sub-opcode (R75). -/
def decodeFamilyF (w : Word) : Option Instr :=
  match (fieldKK w).toNat with
  | 0x07 => some (.ldVxDt (fieldX w))
  | 0x0A => some (.ldVxK (fieldX w))
  | 0x15 => some (.ldDtVx (fieldX w))
  | 0x18 => some (.ldStVx (fieldX w))
  | 0x1E => some (.addIVx (fieldX w))
  | 0x29 => some (.ldFVx (fieldX w))
  | 0x33 => some (.ldBVx (fieldX w))
  | 0x55 => some (.ldMemIVx (fieldX w))
  | 0x65 => some (.ldVxMemI (fieldX w))
  | _ => none

/-- The Decode function of R75; none is `Unknown` (R76). `ignoreLowNibble` is the parameter `IGNORE_5_9_LOW_NIBBLE` (R77). -/
def decodeWord (ignoreLowNibble : Bool) (w : Word) : Option Instr :=
  match (fieldA w).toNat with
  | 0x0 => if w = 0x00E0 then some .cls else if w = 0x00EE then some .ret else none
  | 0x1 => some (.jp (fieldNNN w))
  | 0x2 => some (.call (fieldNNN w))
  | 0x3 => some (.seVxKk (fieldX w) (fieldKK w))
  | 0x4 => some (.sneVxKk (fieldX w) (fieldKK w))
  | 0x5 => if fieldN w = 0 ∨ ignoreLowNibble = true then some (.seVxVy (fieldX w) (fieldY w)) else none
  | 0x6 => some (.ldVxKk (fieldX w) (fieldKK w))
  | 0x7 => some (.addVxKk (fieldX w) (fieldKK w))
  | 0x8 => decodeFamily8 w
  | 0x9 => if fieldN w = 0 ∨ ignoreLowNibble = true then some (.sneVxVy (fieldX w) (fieldY w)) else none
  | 0xA => some (.ldINnn (fieldNNN w))
  | 0xB => some (.jpV0Nnn (fieldNNN w))
  | 0xC => some (.rnd (fieldX w) (fieldKK w))
  | 0xD => some (.drw (fieldX w) (fieldY w) (fieldN w))
  | 0xE => decodeFamilyE w
  | _ => decodeFamilyF w

/-- A word from its two bytes, the first one more significant (R55). -/
def wordOfBytes (hi lo : Byte) : Word := hi ++ lo

/-- Decoding from the bytes at the program counter: big-endian, two bytes to an instruction (R70). -/
def decodeBytes (ignoreLowNibble : Bool) : List Byte → Except DecodeError Instr
  | hi :: lo :: _ =>
    match decodeWord ignoreLowNibble (wordOfBytes hi lo) with
    | some i => .ok i
    | none => .error (.unknown (wordOfBytes hi lo))
  | _ => .error .truncated

/-- The instruction the decoder reads from a row's bits, with the parameters at their defaults. -/
def decodeTableWord (nbits w : Nat) : Option Instr :=
  let bits := w % 2 ^ nbits
  (decodeBytes false [trunc8 (bits / 256), trunc8 bits]).toOption

/-! ### Encoding (R72) -/

/-- A selector or row count as a nibble. -/
def nibble (x : Fin 16) : BitVec 4 := BitVec.ofFin x

/-- Format `NNN`: `a[4] nnn[12]`. -/
def packNNN (a : BitVec 4) (nnn : Addr12) : Word := a ++ nnn

/-- Formats `XKK` and `XSS`: `a[4] x[4] kk[8]`. -/
def packXKK (a : BitVec 4) (x : Reg) (kk : Byte) : Word := a ++ nibble x ++ kk

/-- Formats `XY0`, `XYS` and `XYN`: `a[4] x[4] y[4] n[4]`. -/
def packXYN (a : BitVec 4) (x y : Reg) (n : Fin 16) : Word := a ++ nibble x ++ nibble y ++ nibble n

/-- The word of an instruction (R72, R85). -/
def encode : Instr → Word
  | .cls => 0x00E0
  | .ret => 0x00EE
  | .jp nnn => packNNN 0x1 nnn
  | .call nnn => packNNN 0x2 nnn
  | .seVxKk x kk => packXKK 0x3 x kk
  | .sneVxKk x kk => packXKK 0x4 x kk
  | .seVxVy x y => packXYN 0x5 x y 0x0
  | .ldVxKk x kk => packXKK 0x6 x kk
  | .addVxKk x kk => packXKK 0x7 x kk
  | .ldVxVy x y => packXYN 0x8 x y 0x0
  | .orVxVy x y => packXYN 0x8 x y 0x1
  | .andVxVy x y => packXYN 0x8 x y 0x2
  | .xorVxVy x y => packXYN 0x8 x y 0x3
  | .addVxVy x y => packXYN 0x8 x y 0x4
  | .sub x y => packXYN 0x8 x y 0x5
  | .shr x y => packXYN 0x8 x y 0x6
  | .subn x y => packXYN 0x8 x y 0x7
  | .shl x y => packXYN 0x8 x y 0xE
  | .sneVxVy x y => packXYN 0x9 x y 0x0
  | .ldINnn nnn => packNNN 0xA nnn
  | .jpV0Nnn nnn => packNNN 0xB nnn
  | .rnd x kk => packXKK 0xC x kk
  | .drw x y n => packXYN 0xD x y n
  | .skp x => packXKK 0xE x 0x9E
  | .sknp x => packXKK 0xE x 0xA1
  | .ldVxDt x => packXKK 0xF x 0x07
  | .ldVxK x => packXKK 0xF x 0x0A
  | .ldDtVx x => packXKK 0xF x 0x15
  | .ldStVx x => packXKK 0xF x 0x18
  | .addIVx x => packXKK 0xF x 0x1E
  | .ldFVx x => packXKK 0xF x 0x29
  | .ldBVx x => packXKK 0xF x 0x33
  | .ldMemIVx x => packXKK 0xF x 0x55
  | .ldVxMemI x => packXKK 0xF x 0x65

/-- The bytes of an instruction in memory order: big-endian (R55). -/
def encodeBytes (i : Instr) : List Byte := [(encode i).extractLsb' 8 8, (encode i).extractLsb' 0 8]

/-! ### The opcode map (R85) -/

/-- A row of the opcode map: a word `w` is the row's instruction when `w & mask = pattern`. -/
structure Row where
  /-- The column `match`. -/
  pattern : Word
  /-- The column `mask`. -/
  mask : Word
  deriving DecidableEq, Repr

/-- The word belongs to the row. -/
def Row.matches (r : Row) (w : Word) : Bool := w &&& r.mask == r.pattern

/-- The row of R85 that an instruction's constructor stands for. -/
def Instr.row : Instr → Row
  | .cls => ⟨0x00E0, 0xFFFF⟩
  | .ret => ⟨0x00EE, 0xFFFF⟩
  | .jp _ => ⟨0x1000, 0xF000⟩
  | .call _ => ⟨0x2000, 0xF000⟩
  | .seVxKk _ _ => ⟨0x3000, 0xF000⟩
  | .sneVxKk _ _ => ⟨0x4000, 0xF000⟩
  | .seVxVy _ _ => ⟨0x5000, 0xF00F⟩
  | .ldVxKk _ _ => ⟨0x6000, 0xF000⟩
  | .addVxKk _ _ => ⟨0x7000, 0xF000⟩
  | .ldVxVy _ _ => ⟨0x8000, 0xF00F⟩
  | .orVxVy _ _ => ⟨0x8001, 0xF00F⟩
  | .andVxVy _ _ => ⟨0x8002, 0xF00F⟩
  | .xorVxVy _ _ => ⟨0x8003, 0xF00F⟩
  | .addVxVy _ _ => ⟨0x8004, 0xF00F⟩
  | .sub _ _ => ⟨0x8005, 0xF00F⟩
  | .shr _ _ => ⟨0x8006, 0xF00F⟩
  | .subn _ _ => ⟨0x8007, 0xF00F⟩
  | .shl _ _ => ⟨0x800E, 0xF00F⟩
  | .sneVxVy _ _ => ⟨0x9000, 0xF00F⟩
  | .ldINnn _ => ⟨0xA000, 0xF000⟩
  | .jpV0Nnn _ => ⟨0xB000, 0xF000⟩
  | .rnd _ _ => ⟨0xC000, 0xF000⟩
  | .drw _ _ _ => ⟨0xD000, 0xF000⟩
  | .skp _ => ⟨0xE09E, 0xF0FF⟩
  | .sknp _ => ⟨0xE0A1, 0xF0FF⟩
  | .ldVxDt _ => ⟨0xF007, 0xF0FF⟩
  | .ldVxK _ => ⟨0xF00A, 0xF0FF⟩
  | .ldDtVx _ => ⟨0xF015, 0xF0FF⟩
  | .ldStVx _ => ⟨0xF018, 0xF0FF⟩
  | .addIVx _ => ⟨0xF01E, 0xF0FF⟩
  | .ldFVx _ => ⟨0xF029, 0xF0FF⟩
  | .ldBVx _ => ⟨0xF033, 0xF0FF⟩
  | .ldMemIVx _ => ⟨0xF055, 0xF0FF⟩
  | .ldVxMemI _ => ⟨0xF065, 0xF0FF⟩

/-- One instruction of each constructor, rows 1 to 18 of R85. -/
def Instr.representatives1To18 : List Instr :=
  [Instr.cls, Instr.ret, Instr.jp 0, Instr.call 0, Instr.seVxKk 0 0, Instr.sneVxKk 0 0, Instr.seVxVy 0 0,
   Instr.ldVxKk 0 0, Instr.addVxKk 0 0, Instr.ldVxVy 0 0, Instr.orVxVy 0 0, Instr.andVxVy 0 0, Instr.xorVxVy 0 0,
   Instr.addVxVy 0 0, Instr.sub 0 0, Instr.shr 0 0, Instr.subn 0 0, Instr.shl 0 0]

/-- One instruction of each constructor, rows 19 to 34 of R85. -/
def Instr.representatives19To34 : List Instr :=
  [Instr.sneVxVy 0 0, Instr.ldINnn 0, Instr.jpV0Nnn 0, Instr.rnd 0 0, Instr.drw 0 0 0, Instr.skp 0, Instr.sknp 0,
   Instr.ldVxDt 0, Instr.ldVxK 0, Instr.ldDtVx 0, Instr.ldStVx 0, Instr.addIVx 0, Instr.ldFVx 0, Instr.ldBVx 0,
   Instr.ldMemIVx 0, Instr.ldVxMemI 0]

/-- One instruction of each constructor, in the order of R85. -/
def Instr.representatives : List Instr := Instr.representatives1To18 ++ Instr.representatives19To34

/-- The opcode map of R85: its 34 rows, in its order. -/
def rows : List Row := Instr.representatives.map Instr.row

end Sys2Proof
end

