-- ==== Sys2Proof/Config.lean ====
section
/-!
DEFINITION. What is fixed for a machine: the sizes of R6, the parameters of R7 with their defaults, the default fontset
of R37, and the one free value of the model, the byte that `random_byte()` returns (R39).
-/

namespace Sys2Proof

namespace Config

/-- `MEM_SIZE` (R6): the addresses are 0x000..0xFFF. -/
abbrev memSize : Nat := 0x1000

/-- `PROGRAM_BASE` (R6): the load address and the initial `pc`. -/
abbrev programBase : Nat := 0x200

/-- `FONT_BASE` (R6). -/
abbrev fontBase : Nat := 0x050

/-- `FONT_LEN` (R6): 16 glyphs of 5 bytes. -/
abbrev fontLen : Nat := 80

/-- `MAX_ROM` (R6): the largest program image, 3584 bytes. -/
abbrev maxRom : Nat := memSize - programBase

/-- The default of `FONT`, glyphs 0 to 7 (R37). PRESUMED (log 4): the conventional font. -/
def fontLow : List Byte :=
  [0xF0, 0x90, 0x90, 0x90, 0xF0] ++ [0x20, 0x60, 0x20, 0x20, 0x70] ++
  [0xF0, 0x10, 0xF0, 0x80, 0xF0] ++ [0xF0, 0x10, 0xF0, 0x10, 0xF0] ++
  [0x90, 0x90, 0xF0, 0x10, 0x10] ++ [0xF0, 0x80, 0xF0, 0x10, 0xF0] ++
  [0xF0, 0x80, 0xF0, 0x90, 0xF0] ++ [0xF0, 0x10, 0x20, 0x40, 0x40]

/-- The default of `FONT`, glyphs 8 to F (R37). PRESUMED (log 4): the conventional font. -/
def fontHigh : List Byte :=
  [0xF0, 0x90, 0xF0, 0x90, 0xF0] ++ [0xF0, 0x90, 0xF0, 0x10, 0xF0] ++
  [0xF0, 0x90, 0xF0, 0x90, 0x90] ++ [0xE0, 0x90, 0xE0, 0x90, 0xE0] ++
  [0xF0, 0x80, 0x80, 0x80, 0xF0] ++ [0xE0, 0x90, 0x90, 0x90, 0xE0] ++
  [0xF0, 0x80, 0xF0, 0x80, 0xF0] ++ [0xF0, 0x80, 0xF0, 0x80, 0x80]

/-- `FONT` at its default (R7, R37): the 80 bytes written at 0x050..0x09F at construction. -/
def font : List Byte := fontLow ++ fontHigh

/-- `RNG` (R7, R39): the byte that the n-th call of `random_byte()` returns. A free value (log 2): it has no body, so
nothing about the sequence can be proved but that each value is a byte. -/
opaque randomByte : Nat → Byte

end Config

/-- `SHIFT_SOURCE` (R7, R130): the register that `8XY6` and `8XYE` shift. -/
inductive ShiftSource where
  | vx
  | vy
  deriving DecidableEq, Repr

/-- `DRAW_EDGE` (R7, R173): what a sprite bit past the right or bottom edge does. -/
inductive DrawEdge where
  | clip
  | wrap
  deriving DecidableEq, Repr

/-- The parameters of R7 that a cycle or a readout depends on. A model takes them as arguments (R7). They stand in
`State.params` because `step` has no other argument, and no step changes them (log 1). -/
structure Params where
  /-- `SHIFT_SOURCE`. -/
  shiftSource : ShiftSource
  /-- `DRAW_EDGE`. -/
  drawEdge : DrawEdge
  /-- `IGNORE_5_9_LOW_NIBBLE`. -/
  ignoreLowNibble : Bool
  /-- `PIXEL_ON`. -/
  pixelOn : BitVec 32
  /-- `PIXEL_OFF`. -/
  pixelOff : BitVec 32
  deriving DecidableEq, Repr

/-- The defaults of R7: "the default is the value this spec fixes for the hardware". -/
def Params.default : Params :=
  { shiftSource := .vx, drawEdge := .clip, ignoreLowNibble := false, pixelOn := 0xFFFFFFFF, pixelOff := 0x00000000 }

end Sys2Proof
end

