-- ==== Sys2Proof/Machine/State.lean ====
section
/-!
DEFINITION. The state of the core (spec 10_state.md R20..R41), under the names of R10, with the reasons a step can
stop and the state right after construction.
-/

namespace Sys2Proof.Machine

/-- Memory: the bytes that differ from the construction content, as (address, byte) pairs with rising addresses.
What an unlisted address reads as is `Memory.constructed`; the canonical form is `Memory.wf` (both in Machine/Ops.lean). -/
abbrev Memory := List Host.Cell

/-- The framebuffer `FB[y][x]`: 32 rows of 64 one-bit pixels, true = set (R32). -/
abbrev Framebuffer := Vector (Vector Bool 64) 32

/-- The record of an `UnknownOpcodeError` (R211 code 3). -/
structure Report where
  /-- The address of the unknown word. -/
  pc0 : Word
  /-- The unknown word. -/
  opcode : Word
  deriving DecidableEq, Repr

/-- The state of the core. `V` to `M` are the elements of R41; `params`, `draws` and `reports` are the model's own. -/
structure State where
  /-- The general registers `V[0..15]`; `VF` is `V[15]` (R20, R21). -/
  V : Vector Byte 16
  /-- The index register (R24). -/
  I : Word
  /-- The program counter (R25). -/
  pc : Word
  /-- The stack pointer, 0..16: the number of occupied entries (R27). -/
  sp : Fin 17
  /-- The stack entries `S[0..15]` (R27). -/
  S : Vector Word 16
  /-- The delay timer (R29). -/
  DT : Byte
  /-- The sound timer (R30). -/
  ST : Byte
  /-- The keypad, true = pressed (R31). -/
  K : Vector Bool 16
  /-- The framebuffer (R32). -/
  FB : Framebuffer
  /-- The memory `M[0x000..0xFFF]` (R34). -/
  M : Memory
  /-- The model's own: the parameters of R7, fixed at construction (log 1). -/
  params : Params
  /-- The model's own: how many random bytes have been drawn, the argument of the next draw (R39, log 2). -/
  draws : Nat
  /-- The model's own: the launch record of the `UnknownOpcodeError` cycles so far, newest first (D33, log 5). -/
  reports : List Report
  deriving DecidableEq, Repr

/-- Why a step (or a host operation) stops: the aborting errors of R211, each with its record. The state stays as it
was before the cycle (R215), so a fault carries no state. All are the machine's own reports; stopping there is safe. -/
inductive Fault where
  /-- Code 1, raised by `2NNN` with `sp = 16` (R103). Safe. -/
  | stackOverflow (pc0 opcode : Word)
  /-- Code 2, raised by `00EE` with `sp = 0` (R101). Safe. -/
  | stackUnderflow (pc0 opcode : Word)
  /-- Code 4, raised by the fetch (no opcode), `DXYN`, `FX33`, `FX55` and `FX65` with the first address above 0xFFF,
  and by `EX9E` and `EXA1` with a key index above 15 (R53, R190). Safe. -/
  | memoryBounds (addr : Nat) (pc0 : Word) (opcode : Option Word)
  /-- Code 5, raised by the host operation `LoadProgram` alone, with the length offered (R245). Safe. -/
  | loadError (len : Nat)
  deriving DecidableEq, Repr

/-- The numeric code of an error (R211). -/
def Fault.code : Fault → Nat
  | .stackOverflow _ _ => 1
  | .stackUnderflow _ _ => 2
  | .memoryBounds _ _ _ => 4
  | .loadError _ => 5

/-- Why the model gives no meaning. -/
inductive Refusal where
  /-- Answered by an arm of `exec` whose instruction has no meaning yet; no arm is one now. Safe. -/
  | notModelled (mnemonic : String)
  deriving DecidableEq, Repr

/-- The outcome of a step or of a meaning. -/
abbrev Result := Host.Outcome State Fault Refusal

/-- The state right after construction with the default parameters (R240): `pc = 0x200` and the fontset in memory are
the source's, every other element is zero or false (D4, log 3). Memory lists nothing: it reads as constructed. -/
def State.reset : State :=
  { V := Vector.replicate 16 0
    I := 0
    pc := 0x200
    sp := 0
    S := Vector.replicate 16 0
    DT := 0
    ST := 0
    K := Vector.replicate 16 false
    FB := Vector.replicate 32 (Vector.replicate 64 false)
    M := []
    params := Params.default
    draws := 0
    reports := [] }

end Sys2Proof.Machine
end

