-- ==== Sys2Proof/Machine/Ops.lean ====
section
/-!
DEFINITION. The named operations over memory, registers, stack and framebuffer, the bounds check of R53, raising an
error (R12, R215), and the parts of the cycle around Execute: fetch, advance, timer tick (R90..R94).
-/

namespace Sys2Proof.Machine

/-! ### Memory (R11, R34, R35, R57) -/

/-- What an unlisted address reads as: the content at construction, the fontset at 0x050..0x09F and 0 elsewhere
(R35, R240). -/
def Memory.constructed (a : Nat) : Byte :=
  if Config.fontBase ≤ a ∧ a < Config.fontBase + Config.fontLen then Config.font.getD (a - Config.fontBase) 0 else 0

/-- `MemRead(a, 1)` (R11). -/
def Memory.read : Memory → Nat → Byte
  | [], a => Memory.constructed a
  | (b, v) :: m, a => if a = b then v else Memory.read m a

/-- A cell before `m`, left out where it is what an unlisted address reads as. -/
def Memory.cons (a : Nat) (v : Byte) (m : Memory) : Memory :=
  if v = Memory.constructed a then m else (a, v) :: m

/-- `MemWrite(a, 1, v)` (R11), keeping the canonical form. -/
def Memory.write : Memory → Nat → Byte → Memory
  | [], a, v => Memory.cons a v []
  | (b, u) :: m, a, v =>
    if a < b then Memory.cons a v ((b, u) :: m)
    else if a = b then Memory.cons a v m
    else (b, u) :: Memory.write m a v

/-- `bytes` written from address `a` upwards, in increasing address order (R57). -/
def Memory.writeBytes (m : Memory) (a : Nat) : List Byte → Memory
  | [] => m
  | v :: bytes => Memory.writeBytes (m.write a v) (a + 1) bytes

/-- Every listed address is at least `lo`, inside the memory and above the one before it, and no cell is what an
unlisted address reads as. -/
def Memory.wfFrom (lo : Nat) : Memory → Bool
  | [] => true
  | (a, v) :: m => decide (lo ≤ a ∧ a < Config.memSize ∧ v ≠ Memory.constructed a) && Memory.wfFrom (a + 1) m

/-- The canonical form: equal memories are equal lists. -/
def Memory.wf (m : Memory) : Bool := Memory.wfFrom 0 m

/-! ### Registers, stack and framebuffer -/

/-- `V[x]` (R10): the one way the meanings read a general register. -/
def State.reg (s : State) (x : Reg) : Byte := s.V[x]

/-- `V[x] <- b` (R10). -/
def State.setV (s : State) (x : Reg) (b : Byte) : State := { s with V := s.V.set x.val b x.isLt }

/-- `VF <- b` (R10). -/
abbrev State.setVF (s : State) (b : Byte) : State := s.setV VF b

/-- All of `V[0..15]`. -/
def State.setRegs (s : State) (v : Vector Byte 16) : State := { s with V := v }

/-- `I <- a` (R10). -/
def State.setI (s : State) (a : Word) : State := { s with I := a }

/-- `pc <- a` (R10). -/
def State.setPc (s : State) (a : Word) : State := { s with pc := a }

/-- `S[sp] <- a; sp <- sp + 1`, where there is a free entry (R27, R28). -/
def State.push (s : State) (a : Word) (h : s.sp.val < 16) : State :=
  { s with S := s.S.set s.sp.val a h, sp := ⟨s.sp.val + 1, by omega⟩ }

/-- `sp <- n` (R27). The entries keep what they hold (R28). -/
def State.setSp (s : State) (n : Fin 17) : State := { s with sp := n }

/-- `DT <- b` (R29). -/
def State.setDT (s : State) (b : Byte) : State := { s with DT := b }

/-- `ST <- b` (R30). -/
def State.setST (s : State) (b : Byte) : State := { s with ST := b }

/-- The keypad, written by the host alone (R31). -/
def State.setK (s : State) (k : Vector Bool 16) : State := { s with K := k }

/-- The whole framebuffer. -/
def State.setFB (s : State) (fb : Framebuffer) : State := { s with FB := fb }

/-- The whole memory. -/
def State.setM (s : State) (m : Memory) : State := { s with M := m }

/-- One random byte has been drawn (R39). -/
def State.countDraw (s : State) : State := { s with draws := s.draws + 1 }

/-- The launch record takes one more report (D33). -/
def State.record (s : State) (r : Report) : State := { s with reports := r :: s.reports }

/-- The pixel `FB[y][x]` (R32). -/
def Framebuffer.pixel (fb : Framebuffer) (y : Fin 32) (x : Fin 64) : Bool := fb[y][x]

/-- `FB[y][x] <- FB[y][x] ^ 1` (R170). -/
def Framebuffer.toggle (fb : Framebuffer) (y : Fin 32) (x : Fin 64) : Framebuffer :=
  fb.set y.val (fb[y].set x.val (!fb.pixel y x) x.isLt) y.isLt

/-- Every pixel 0 (R171). -/
def Framebuffer.clear : Framebuffer := Vector.replicate 32 (Vector.replicate 64 false)

/-! ### Arithmetic on bytes: exact on naturals, then cut (R9, R120) -/

/-- `trunc_8(a + b)`. -/
def add8 (a b : Byte) : Byte := trunc8 (a.toNat + b.toNat)

/-- `(a + 256 - b) mod 256`. -/
def sub8 (a b : Byte) : Byte := trunc8 (a.toNat + 256 - b.toNat)

/-- `a >> 1`. -/
def shr8 (a : Byte) : Byte := trunc8 (a.toNat / 2)

/-- `trunc_8(a * 2)`. -/
def shl8 (a : Byte) : Byte := trunc8 (a.toNat * 2)

/-! ### Raising an error (R12, R210..R218) -/

/-- `raise E(info)` (R12). The core has no trap: nothing is saved, no mode changes and control goes nowhere (R210,
R218). The cycle aborts with the state as it was before it (R215) and the error is its report. The only return is the
host's next `Cycle()` from that state (R216). -/
def raise (e : Fault) : Result := .fault e

/-- `pc0` of the instruction in Execute: the Advance step has added 2 to it (R25). -/
def State.pc0 (s : State) : Word := trunc16 (s.pc.toNat + 65536 - 2)

/-- The bounds check of R53 on the `len` bytes from `a`: the first address above 0xFFF among them. Addresses are
naturals and do not wrap (R54). -/
def firstOutOfRange (a len : Nat) : Option Nat :=
  if 0 < len ∧ Config.memSize ≤ a + len - 1 then some (max a Config.memSize) else none

/-- The window check of `DXYN`, `FX33`, `FX55` and `FX65`, before any write (R53, R150): `k` runs where the `len` bytes
from `I` are all inside the memory. -/
def withWindow (i : Instr) (len : Nat) (s : State) (k : Result) : Result :=
  match firstOutOfRange s.I.toNat len with
  | some a => raise (.memoryBounds a s.pc0 (some (encode i)))
  | none => k

/-! ### The cycle around Execute (R90) -/

/-- What the fetch gives: the word, or the first address above 0xFFF. -/
inductive Fetched where
  | word (opcode : Word)
  | outOfRange (addr : Nat)
  deriving DecidableEq, Repr

/-- Fetch (R91): the two bytes at `pc`, big-endian, both addresses checked first. -/
def fetch (s : State) : Fetched :=
  match firstOutOfRange s.pc.toNat 2 with
  | some a => .outOfRange a
  | none => .word (wordOfBytes (s.M.read s.pc.toNat) (s.M.read (s.pc.toNat + 1)))

/-- Advance (R92): `pc <- trunc_16(pc + 2)`. A skip is the same move once more (R26). -/
def advance (s : State) : State := s.setPc (trunc16 (s.pc.toNat + 2))

/-- Rewind (R26, R194): `pc <- trunc_16(pc - 2)`. -/
def rewind (s : State) : State := s.setPc s.pc0

/-- `pc <- trunc_16(pc + 2)` if `c` holds (R26). -/
def skipIf (c : Bool) (s : State) : State := if c then advance s else s

/-- A timer's decrement, never below zero (R230). -/
def tick (t : Byte) : Byte := if 0 < t.toNat then trunc8 (t.toNat - 1) else t

/-- TimerTick (R230): the two timers tick independently. -/
def timerTick (s : State) : State := (s.setDT (tick s.DT)).setST (tick s.ST)

end Sys2Proof.Machine
end

