-- ==== Sys2Proof/Machine/Flags.lean ====
section
/-!
DEFINITION. The values that instructions write to `VF` as a flag (spec 10_state.md R21, 41_alu.md R120).
-/

namespace Sys2Proof.Machine

/-- `bool01(c)` (R9). -/
def bool01 (c : Bool) : Byte := if c then 1 else 0

/-- Carry of `8XY4`: the sum exceeds 255 (R128). -/
def carryFlag (a b : Byte) : Byte := bool01 (decide (a.toNat + b.toNat > 255))

/-- No-borrow of `8XY5` and `8XY7`: minuend ≥ subtrahend (R129, R131). -/
def noBorrowFlag (a b : Byte) : Byte := bool01 (decide (a.toNat ≥ b.toNat))

/-- The bit that a right shift moves out, bit 0 (R130). -/
def lowBitFlag (a : Byte) : Byte := trunc8 (a.toNat % 2)

/-- The bit that a left shift moves out, bit 7 (R132). -/
def highBitFlag (a : Byte) : Byte := trunc8 (a.toNat / 128 % 2)

end Sys2Proof.Machine
end

