-- ==== Sys2Proof/Machine/Operands.lean ====
section
/-!
DEFINITION. The operand forms: immediates (R73), the shift operand (R130), the key index (R190), the register window
of `FX55` and `FX65` (R155, R156), the decimal digits of `FX33` (R154), the glyph address of `FX29` (R153).
-/

namespace Sys2Proof.Machine

/-- `zext_16(nnn)` (R73). -/
def zext16 (nnn : Addr12) : Word := nnn.setWidth 16

/-- `if SHIFT_SOURCE = vy: V[x] <- V[y]`, the first statement of `8XY6` and `8XYE` (R130, R132). -/
def shiftOperand (x y : Reg) (s : State) : State :=
  match s.params.shiftSource with
  | .vx => s
  | .vy => s.setV x (s.reg y)

/-- The key that a register value names; only 0..15 name one (R190). -/
def keyIndex (k : Byte) : Option (Fin 16) := if h : k.toNat < 16 then some ⟨k.toNat, h⟩ else none

/-- The check of `EX9E` and `EXA1` (R190): `k` runs with the key `V[x]` names, and an index above 15 raises
`MemoryBoundsError(addr = V[x])`. -/
def withKey (i : Instr) (x : Reg) (s : State) (k : Fin 16 → Result) : Result :=
  match keyIndex (s.reg x) with
  | some key => k key
  | none => raise (.memoryBounds (s.reg x).toNat s.pc0 (some (encode i)))

/-- `min { k | K[k] }`, if any key is down (R194). -/
def lowestKey (K : Vector Bool 16) : Option (Fin 16) := (List.finRange 16).find? fun k => K[k]

/-- The bytes `V[0], .., V[x]`, in that order (R155). -/
def regBytes (V : Vector Byte 16) (x : Reg) : List Byte := V.toList.take (x.val + 1)

/-- The registers after `V[i] <- M[a + i]` for i in 0..x (R156). -/
def loadedRegs (V : Vector Byte 16) (m : Memory) (a : Nat) (x : Reg) : Vector Byte 16 :=
  Vector.ofFn fun i => if i.val ≤ x.val then m.read (a + i.val) else V[i]

/-- Hundreds, tens and ones of a byte (R154). -/
def bcdDigits (v : Byte) : List Byte := [trunc8 (v.toNat / 100), trunc8 (v.toNat / 10 % 10), trunc8 (v.toNat % 10)]

/-- `trunc_16(0x050 + 5 * v)`, with the full byte (R153). -/
def glyphAddress (v : Byte) : Word := trunc16 (Config.fontBase + 5 * v.toNat)

end Sys2Proof.Machine
end

