-- ==== Sys2Proof/Machine/Alu.lean ====
section
/-!
DEFINITION. Register loads and arithmetic (spec 41_alu.md). Statements run in the rule's order, each on the state the
one before it left (R13), which decides every case with `x` or `y` = 15 (R121, D12, log 9).
-/

namespace Sys2Proof.Machine

/-- `6XKK` (R122). -/
def execLdVxKk (x : Reg) (kk : Byte) (s : State) : Result := .next (s.setV x kk)

/-- `7XKK` (R123): no flag. -/
def execAddVxKk (x : Reg) (kk : Byte) (s : State) : Result := .next (s.setV x (add8 (s.reg x) kk))

/-- `8XY0` (R124). -/
def execLdVxVy (x y : Reg) (s : State) : Result := .next (s.setV x (s.reg y))

/-- `8XY1` (R125). -/
def execOrVxVy (x y : Reg) (s : State) : Result := .next (s.setV x (s.reg x ||| s.reg y))

/-- `8XY2` (R126). -/
def execAndVxVy (x y : Reg) (s : State) : Result := .next (s.setV x (s.reg x &&& s.reg y))

/-- `8XY3` (R127). -/
def execXorVxVy (x y : Reg) (s : State) : Result := .next (s.setV x (s.reg x ^^^ s.reg y))

/-- `8XY4` (R128): the sum is read before `VF` is written. -/
def execAddVxVy (x y : Reg) (s : State) : Result :=
  let sum := add8 (s.reg x) (s.reg y)
  .next ((s.setVF (carryFlag (s.reg x) (s.reg y))).setV x sum)

/-- `8XY5` (R129): the difference reads `V[x]` and `V[y]` after the `VF` write. -/
def execSub (x y : Reg) (s : State) : Result :=
  let s1 := s.setVF (noBorrowFlag (s.reg x) (s.reg y))
  .next (s1.setV x (sub8 (s1.reg x) (s1.reg y)))

/-- `8XY6` (R130): the shift reads `V[x]` after the `VF` write. -/
def execShr (x y : Reg) (s : State) : Result :=
  let s1 := shiftOperand x y s
  let s2 := s1.setVF (lowBitFlag (s1.reg x))
  .next (s2.setV x (shr8 (s2.reg x)))

/-- `8XY7` (R131): the difference reads `V[x]` and `V[y]` after the `VF` write. -/
def execSubn (x y : Reg) (s : State) : Result :=
  let s1 := s.setVF (noBorrowFlag (s.reg y) (s.reg x))
  .next (s1.setV x (sub8 (s1.reg y) (s1.reg x)))

/-- `8XYE` (R132): the shift reads `V[x]` after the `VF` write. -/
def execShl (x y : Reg) (s : State) : Result :=
  let s1 := shiftOperand x y s
  let s2 := s1.setVF (highBitFlag (s1.reg x))
  .next (s2.setV x (shl8 (s2.reg x)))

/-- `CXKK` (R133): one draw of the free value `Config.randomByte` (R39, log 2). -/
def execRnd (x : Reg) (kk : Byte) (s : State) : Result :=
  .next (s.countDraw.setV x (Config.randomByte s.draws &&& kk))

end Sys2Proof.Machine
end

