-- ==== Sys2Proof/Machine/Control.lean ====
section
/-!
DEFINITION. Control transfer (spec 40_control.md): RET, JP, CALL, the skips on registers, JP V0. Each runs on the state
after the Advance step, so `pc` is the address of the next instruction (R92).
-/

namespace Sys2Proof.Machine

/-- `00EE` (R101). -/
def execRet (s : State) : Result :=
  if h : s.sp.val = 0 then raise (.stackUnderflow s.pc0 (encode .ret))
  else
    have hlt : s.sp.val - 1 < 16 := by omega
    .next ((s.setSp ⟨s.sp.val - 1, by omega⟩).setPc s.S[s.sp.val - 1])

/-- `1NNN` (R102). -/
def execJp (nnn : Addr12) (s : State) : Result := .next (s.setPc (zext16 nnn))

/-- `2NNN` (R103). -/
def execCall (nnn : Addr12) (s : State) : Result :=
  if h : s.sp.val < 16 then .next ((s.push s.pc h).setPc (zext16 nnn))
  else raise (.stackOverflow s.pc0 (encode (.call nnn)))

/-- `3XKK` (R104). -/
def execSeVxKk (x : Reg) (kk : Byte) (s : State) : Result := .next (skipIf (s.reg x == kk) s)

/-- `4XKK` (R105). -/
def execSneVxKk (x : Reg) (kk : Byte) (s : State) : Result := .next (skipIf (s.reg x != kk) s)

/-- `5XY0` (R106). -/
def execSeVxVy (x y : Reg) (s : State) : Result := .next (skipIf (s.reg x == s.reg y) s)

/-- `9XY0` (R107). -/
def execSneVxVy (x y : Reg) (s : State) : Result := .next (skipIf (s.reg x != s.reg y) s)

/-- `BNNN` (R108). -/
def execJpV0Nnn (nnn : Addr12) (s : State) : Result := .next (s.setPc (trunc16 ((s.reg 0).toNat + nnn.toNat)))

end Sys2Proof.Machine
end

