-- ==== Sys2Proof/Machine/Display.lean ====
section
/-!
DEFINITION. The framebuffer instructions (spec 43_display.md): CLS and DRW, for both settings of `DRAW_EDGE` (R173).
-/

namespace Sys2Proof.Machine

/-- `00E0` (R171). -/
def execCls (s : State) : Result := .next (s.setFB Framebuffer.clear)

/-- The pixel (row, column) that bit `c` of sprite row `r` falls on, for a sprite at column `x0` and row `y0`: none
where it is clipped (R172, R173). -/
def pixelAt (edge : DrawEdge) (x0 y0 r c : Nat) : Option (Fin 32 × Fin 64) :=
  match edge with
  | .clip => if h : y0 + r < 32 ∧ x0 + c < 64 then some (⟨y0 + r, h.1⟩, ⟨x0 + c, h.2⟩) else none
  | .wrap => some (Fin.ofNat 32 (y0 + r), Fin.ofNat 64 (x0 + c))

/-- The two things that the scan of a draw changes (R172). -/
structure Canvas where
  /-- The framebuffer. -/
  fb : Framebuffer
  /-- `VF = 1` so far: some set pixel was turned off. -/
  collided : Bool
  deriving DecidableEq, Repr

/-- One set sprite bit (R172): a set pixel is a collision, and the pixel is toggled. -/
def Canvas.plot (k : Canvas) (p : Option (Fin 32 × Fin 64)) : Canvas :=
  match p with
  | none => k
  | some (y, x) => { fb := k.fb.toggle y x, collided := k.collided || k.fb.pixel y x }

/-- One sprite row: bit 7 is the leftmost pixel (R172). -/
def Canvas.plotRow (k : Canvas) (edge : DrawEdge) (x0 y0 r : Nat) (row : Byte) : Canvas :=
  (List.range 8).foldl (fun k c => if row.getLsbD (7 - c) then k.plot (pixelAt edge x0 y0 r c) else k) k

/-- The `n` sprite rows from address `a`, top row first (R172). -/
def Canvas.plotSprite (k : Canvas) (edge : DrawEdge) (x0 y0 n : Nat) (m : Memory) (a : Nat) : Canvas :=
  (List.range n).foldl (fun k r => k.plotRow edge x0 y0 r (m.read (a + r))) k

/-- `DXYN` (R172): the origin is read, `VF` is reset, the rows are scanned, and `VF` ends as the collision flag. -/
def execDrw (x y : Reg) (n : Fin 16) (s : State) : Result :=
  withWindow (.drw x y n) n.val s <|
    let x0 := (s.reg x).toNat % 64
    let y0 := (s.reg y).toNat % 32
    let k : Canvas := { fb := s.FB, collided := false }
    let k := k.plotSprite s.params.drawEdge x0 y0 n.val s.M s.I.toNat
    .next ((s.setFB k.fb).setVF (bool01 k.collided))

end Sys2Proof.Machine
end

