-- ==== Sys2Proof/Machine/IndexMemory.lean ====
section
/-!
DEFINITION. The index register and memory transfers (spec 42_index_memory.md). No transfer changes `I` (R150).
-/

namespace Sys2Proof.Machine

/-- `ANNN` (R151). -/
def execLdINnn (nnn : Addr12) (s : State) : Result := .next (s.setI (zext16 nnn))

/-- `FX1E` (R152): wraps at 65536 and sets no flag. -/
def execAddIVx (x : Reg) (s : State) : Result := .next (s.setI (trunc16 (s.I.toNat + (s.reg x).toNat)))

/-- `FX29` (R153). -/
def execLdFVx (x : Reg) (s : State) : Result := .next (s.setI (glyphAddress (s.reg x)))

/-- `FX33` (R154). -/
def execLdBVx (x : Reg) (s : State) : Result :=
  withWindow (.ldBVx x) 3 s (.next (s.setM (s.M.writeBytes s.I.toNat (bcdDigits (s.reg x)))))

/-- `FX55` (R155). -/
def execLdMemIVx (x : Reg) (s : State) : Result :=
  withWindow (.ldMemIVx x) (x.val + 1) s (.next (s.setM (s.M.writeBytes s.I.toNat (regBytes s.V x))))

/-- `FX65` (R156). -/
def execLdVxMemI (x : Reg) (s : State) : Result :=
  withWindow (.ldVxMemI x) (x.val + 1) s (.next (s.setRegs (loadedRegs s.V s.M s.I.toNat x)))

end Sys2Proof.Machine
end

