-- ==== Sys2Proof/Machine/KeypadTimer.lean ====
section
/-!
DEFINITION. The keypad and timer instructions (spec 44_keypad_timer.md). The timer tick of the same cycle follows
Execute (R94) and is not part of a meaning.
-/

namespace Sys2Proof.Machine

/-- `EX9E` (R191). -/
def execSkp (x : Reg) (s : State) : Result := withKey (.skp x) x s fun k => .next (skipIf s.K[k] s)

/-- `EXA1` (R192). -/
def execSknp (x : Reg) (s : State) : Result := withKey (.sknp x) x s fun k => .next (skipIf (!s.K[k]) s)

/-- `FX07` (R193). -/
def execLdVxDt (x : Reg) (s : State) : Result := .next (s.setV x s.DT)

/-- `FX0A` (R194): the lowest pressed key, or back to `pc0` so that the same instruction runs next cycle. -/
def execLdVxK (x : Reg) (s : State) : Result :=
  match lowestKey s.K with
  | some k => .next (s.setV x (trunc8 k.val))
  | none => .next (rewind s)

/-- `FX15` (R195). -/
def execLdDtVx (x : Reg) (s : State) : Result := .next (s.setDT (s.reg x))

/-- `FX18` (R196). -/
def execLdStVx (x : Reg) (s : State) : Result := .next (s.setST (s.reg x))

end Sys2Proof.Machine
end

