-- ==== Sys2Proof/Machine/Cycle.lean ====
section
/-!
DEFINITION. `Cycle()` as one atomic transition (spec 30_encoding.md R90): fetch, advance, decode, execute, tick, with
the status it returns to the host (spec 60_exceptions.md R211).
-/

namespace Sys2Proof.Machine

/-- The status of a cycle (R95, R211). -/
inductive Status where
  /-- Code 0. -/
  | ok
  /-- Code 3, a completed cycle that is a reported no-op (R217). -/
  | unknownOpcode (pc0 opcode : Word)
  /-- Codes 1, 2 and 4: the cycle has no effect (R215). -/
  | aborted (e : Fault)
  /-- The model gives no meaning; no instruction is one. -/
  | noMeaning (r : Refusal)
  deriving DecidableEq, Repr

/-- The numeric code of a status (R211); the model's own `noMeaning` has none. -/
def Status.code : Status → Option Nat
  | .ok => some 0
  | .unknownOpcode _ _ => some 3
  | .aborted e => some e.code
  | .noMeaning _ => none

/-- The end of a cycle of a decoded instruction (R90): the tick after a completed Execute, and the state `s0` before the
cycle after an error. -/
def finish (s0 : State) (r : Result) : State × Status :=
  match r with
  | .next s => (timerTick s, .ok)
  | .fault e => (s0, .aborted e)
  | .refused r => (s0, .noMeaning r)

/-- `Cycle()` (R90). -/
def cycle (s0 : State) : State × Status :=
  match fetch s0 with
  | .outOfRange a => (s0, .aborted (.memoryBounds a s0.pc none))
  | .word opcode =>
    match decodeWord s0.params.ignoreLowNibble opcode with
    | some i => finish s0 (exec i (advance s0))
    | none => (timerTick (advance s0), .unknownOpcode s0.pc opcode)

/-- A cycle as the outcome of a step: a completed cycle goes on, an unknown word is recorded (D33), and an aborted cycle
stops with its error (log 5, log 6). -/
def outcomeOf (r : State × Status) : Result :=
  match r.2 with
  | .ok => .next r.1
  | .unknownOpcode pc0 opcode => .next (r.1.record { pc0 := pc0, opcode := opcode })
  | .aborted e => .fault e
  | .noMeaning x => .refused x

end Sys2Proof.Machine
end

