-- ==== Sys2Proof/Machine/Step.lean ====
section
/-!
DEFINITION. One step is one `Cycle()` (spec 30_encoding.md R90), and the placing of an instruction's word where the next
step fetches it.
-/

namespace Sys2Proof.Machine

/-- One step of the machine: one cycle. -/
def step (s : State) : Host.Outcome State Fault Refusal := outcomeOf (cycle s)

/-- `s` with the word of a table row where the next step fetches: its two bytes, big-endian (R55), at `pc`. Where `pc`
cannot be fetched from (R91), `pc` is set to the entry point first (log 8). -/
def State.withFetchWord (s : State) (nbits w : Nat) : State :=
  let bits := w % 2 ^ nbits
  let t := if s.pc.toNat + 1 < Config.memSize then s else s.setPc (trunc16 Config.programBase)
  t.setM (t.M.writeBytes t.pc.toNat [trunc8 (bits / 256), trunc8 bits])

end Sys2Proof.Machine
end

