-- ==== Sys2Proof/WellFormed.lean ====
section
/-!
DEFINITION. What is well formed: an instruction whose operands fit the fields of R71, a program image that fits the
memory from 0x200 up (R245), and a fontset of 80 bytes (R6).
-/

namespace Sys2Proof

/-- The operands of an instruction as (width of its field in bits, value), in the order of its syntax (R71, R72). -/
def Instr.operands : Instr → List (Nat × Nat)
  | .cls | .ret => []
  | .jp nnn | .call nnn | .ldINnn nnn | .jpV0Nnn nnn => [(12, nnn.toNat)]
  | .seVxKk x kk | .sneVxKk x kk | .ldVxKk x kk | .addVxKk x kk | .rnd x kk => [(4, x.val), (8, kk.toNat)]
  | .seVxVy x y | .ldVxVy x y | .orVxVy x y | .andVxVy x y | .xorVxVy x y | .addVxVy x y | .sub x y | .shr x y
  | .subn x y | .shl x y | .sneVxVy x y => [(4, x.val), (4, y.val)]
  | .drw x y n => [(4, x.val), (4, y.val), (4, n.val)]
  | .skp x | .sknp x | .ldVxDt x | .ldVxK x | .ldDtVx x | .ldStVx x | .addIVx x | .ldFVx x | .ldBVx x
  | .ldMemIVx x | .ldVxMemI x => [(4, x.val)]

/-- Every value fits its field. -/
def operandsFit (ops : List (Nat × Nat)) : Bool := ops.all fun p => decide (p.2 < 2 ^ p.1)

/-- The operands fit their fields. Every term of `Instr` does, by its types: "No field value is invalid" (R73). -/
def Instr.wellFormed (i : Instr) : Bool := operandsFit i.operands

/-- A program image fits 0x200..0xFFF: at most 3584 bytes (R245). -/
def imageFits (image : List Byte) : Bool := decide (image.length ≤ Config.maxRom)

/-- A fontset is 80 bytes (R6, R37). -/
def fontWellFormed (font : List Byte) : Bool := decide (font.length = Config.fontLen)

end Sys2Proof
end

