-- ==== Sys2Proof/Machine/HostOps.lean ====
section
/-!
DEFINITION. The host's operations of spec 70_reset_and_hazards.md R255 other than `Cycle()`: `Construct`, `LoadProgram`,
`SetKeys`, `ReadFramebuffer`, `ReadSoundTimer`. Each runs between cycles, as one indivisible step (R58, R60).
-/

namespace Sys2Proof.Machine

/-- `RESET_FILL` (R7, R240): the elements that the source does not name are zero, or a draw made at construction. -/
inductive ResetFill where
  | zero
  | arbitrary (draw : State)
  deriving DecidableEq, Repr

/-- What the unnamed elements hold before `pc` and the fontset are written. -/
def ResetFill.base : ResetFill → State
  | .zero => State.reset
  | .arbitrary draw => draw

/-- `Construct()` (R240) for given parameters: `pc` and the fontset are fixed, the rest is the fill. -/
def construct (params : Params) (font : List Byte) (fill : ResetFill) : State :=
  { fill.base with
    pc := trunc16 Config.programBase
    M := fill.base.M.writeBytes Config.fontBase font
    params := params
    reports := [] }

/-- `LoadProgram(bytes)` (R245): too long an image is a `LoadError` with memory unchanged, and otherwise its bytes are
`M[0x200 ..]` and nothing else changes. -/
def loadProgram (image : List Byte) (s : State) : Result :=
  if imageFits image then .next (s.setM (s.M.writeBytes Config.programBase image)) else raise (.loadError image.length)

/-- `SetKeys(K)` (R255, R31). -/
def setKeys (k : Vector Bool 16) (s : State) : State := s.setK k

/-- `ReadFramebuffer()` (R33, R255): 2048 words, row-major, `index = y * 64 + x`. -/
def readFramebuffer (s : State) : Vector (BitVec 32) 2048 :=
  Vector.ofFn fun k =>
    if s.FB.pixel ⟨k.val / 64, by omega⟩ ⟨k.val % 64, by omega⟩ then s.params.pixelOn else s.params.pixelOff

/-- `ReadSoundTimer()` (R232, R255). -/
def readSoundTimer (s : State) : Byte := s.ST

end Sys2Proof.Machine
end

