-- ==== Sys2Proof/Safety.lean ====
section
/-!
DEFINITION. The terms in which claims are made: the invariant of the machine, what an instruction leaves unchanged, and
the two states of a program that spec 70_reset_and_hazards.md R263 names.
-/

namespace Sys2Proof.Machine

/-- The invariant that every step keeps: memory is in its canonical form, inside 0x000..0xFFF, and every report in the
launch record is of a word that decodes to `Unknown` under the machine's parameters (R76, R217). -/
def State.Inv (s : State) : Prop :=
  s.M.wf = true ∧ ∀ r ∈ s.reports, decodeWord s.params.ignoreLowNibble r.opcode = none

/-- The elements of `State`. -/
inductive Part where
  | V | I | pc | sp | S | DT | ST | K | FB | M | params | draws | reports
  deriving DecidableEq, Repr

/-- The element is the same in two states; of memory, every byte reads the same. -/
def Part.same (s t : State) : Part → Prop
  | .V => ∀ j : Reg, t.reg j = s.reg j
  | .I => t.I = s.I
  | .pc => t.pc = s.pc
  | .sp => t.sp = s.sp
  | .S => t.S = s.S
  | .DT => t.DT = s.DT
  | .ST => t.ST = s.ST
  | .K => t.K = s.K
  | .FB => t.FB = s.FB
  | .M => ∀ a : Nat, t.M.read a = s.M.read a
  | .params => t.params = s.params
  | .draws => t.draws = s.draws
  | .reports => t.reports = s.reports

/-- Every element outside `parts` is the same in `t` as in `s` (R93: "Every other element keeps its value"). -/
def OnlyChanges (parts : List Part) (s t : State) : Prop := ∀ p, p ∉ parts → p.same s t

/-- Every general register outside `xs` is the same in `t` as in `s`. -/
def RegsKeptBut (xs : List Reg) (s t : State) : Prop := ∀ j : Reg, j ∉ xs → t.reg j = s.reg j

/-- The word at `pc`, if it can be fetched, decodes to `i` (R75, R91). -/
def State.runs (s : State) (i : Instr) : Prop :=
  ∃ w, fetch s = .word w ∧ decodeWord s.params.ignoreLowNibble w = some i

/-- Where bit `c` of sprite row `r` falls for a sprite at column `x0` and row `y0` (R172, R173): under `clip` only inside
the grid, under `wrap` modulo its width and height. -/
def Lands (edge : DrawEdge) (x0 y0 r c : Nat) (y : Fin 32) (x : Fin 64) : Prop :=
  match edge with
  | .clip => y0 + r = y.val ∧ x0 + c = x.val
  | .wrap => (y0 + r) % 32 = y.val ∧ (x0 + c) % 64 = x.val

/-- The pixel is under a set bit of the `n`-row sprite at address `a`, drawn at column `x0` and row `y0` (R172). -/
def SpriteHits (edge : DrawEdge) (x0 y0 n : Nat) (m : Memory) (a : Nat) (y : Fin 32) (x : Fin 64) : Prop :=
  ∃ r c : Nat, r < n ∧ c < 8 ∧ (m.read (a + r)).getLsbD (7 - c) = true ∧ Lands edge x0 y0 r c y x

/-- The pixel is under a set bit of the sprite that `DXYN` draws in `s` (R172): the origin is `V[x] mod 64`,
`V[y] mod 32`. -/
def State.drawHits (s : State) (x y : Reg) (n : Fin 16) (py : Fin 32) (px : Fin 64) : Prop :=
  SpriteHits s.params.drawEdge ((s.reg x).toNat % 64) ((s.reg y).toNat % 32) n.val s.M s.I.toNat py px

/-- A program is at rest: the word at `pc` is `1NNN` with `nnn = pc` (R263). -/
def State.atRest (s : State) : Prop := ∃ nnn : Addr12, s.runs (.jp nnn) ∧ nnn.toNat = s.pc.toNat

/-- A run of `k` cycles from `s` that reported no error, in `t` (R216, R263). -/
def CleanRun (k : Nat) (s t : State) : Prop := Sys2Proof.core.run k s = .next t ∧ t.reports = s.reports

end Sys2Proof.Machine
end

