-- ==== Sys2Proof/Certificates/Slice0/Obligations.lean ====
section
/-!
DEFINITION. The statements for the provers. Where a statement speaks of `exec`, `s` is the state after the Advance step
(R92), so `s.pc` is the address of the next instruction and `s.pc - 2` that of the instruction itself.
"The spec's decision D<n>" marks a clause that rests on a choice the spec marks as its own.
-/

open Sys2Proof Sys2Proof.Machine

/-! ### Reset, memory and the invariant -/

/-- R240: what construction leaves. `pc = 0x200` and the place of the font are the source's; the zeros are the spec's
decision D4 (log 3) and the font bytes its default D5 (log 4). -/
def Obligations.ResetLeavesConstructionState : Prop :=
  State.reset.pc = 0x200 ∧ State.reset.I = 0 ∧ State.reset.sp = 0 ∧ State.reset.DT = 0 ∧ State.reset.ST = 0 ∧
  (∀ j : Reg, State.reset.reg j = 0) ∧ (∀ j : Fin 16, State.reset.S[j] = 0) ∧ (∀ k : Fin 16, State.reset.K[k] = false) ∧
  (∀ y x, State.reset.FB.pixel y x = false) ∧
  (∀ j : Fin 80, State.reset.M.read (0x050 + j.val) = Config.font.getD j.val 0) ∧
  (∀ a, a < 0x050 ∨ 0x0A0 ≤ a → State.reset.M.read a = 0) ∧
  State.reset.params = Params.default

/-- The invariant holds at reset. -/
def Obligations.InvariantHoldsAtReset : Prop := State.reset.Inv

/-- Every step from a state with the invariant gives a state with it: memory stays in its canonical form, inside
0x000..0xFFF, and every recorded report is of a word that decodes to Unknown. The canonical form and the record are the
model's (log 5, log 7). -/
def Obligations.InvariantKeptByEveryStep : Prop := ∀ s t : State, s.Inv → step s = .next t → t.Inv

/-- R53: the bounds check on the bytes `a .. a + len - 1` names the lowest of them that is above 0xFFF, and passes where
none is. -/
def Obligations.BoundsCheckNamesFirstBadAddress : Prop :=
  ∀ a len : Nat,
    (firstOutOfRange a len = none ↔ ∀ b, a ≤ b → b < a + len → b ≤ 0xFFF) ∧
    (∀ b, firstOutOfRange a len = some b ↔
      (a ≤ b ∧ b < a + len ∧ 0xFFF < b) ∧ ∀ c, a ≤ c → c < a + len → 0xFFF < c → b ≤ c)

/-! ### Encoding and decoding -/

/-- R72, R75: decoding the word of an instruction gives it back, with every operand at every value, under both settings
of `IGNORE_5_9_LOW_NIBBLE`, and so does decoding its bytes, whatever follows them. -/
def Obligations.DecodeOfEncodeIsTheInstruction : Prop :=
  ∀ (ignoreLowNibble : Bool) (i : Instr) (rest : List Byte),
    decodeWord ignoreLowNibble (encode i) = some i ∧ decodeBytes ignoreLowNibble (encodeBytes i ++ rest) = .ok i

/-- R72, R85: the word of every instruction, as a number made of its fields. -/
def Obligations.EncodingsAreThoseOfTheOpcodeMap : Prop :=
  ∀ i : Instr,
    (encode i).toNat =
      match i with
      | .cls => 0x00E0
      | .ret => 0x00EE
      | .jp nnn => 0x1000 + nnn.toNat
      | .call nnn => 0x2000 + nnn.toNat
      | .seVxKk x kk => 0x3000 + 256 * x.val + kk.toNat
      | .sneVxKk x kk => 0x4000 + 256 * x.val + kk.toNat
      | .seVxVy x y => 0x5000 + 256 * x.val + 16 * y.val
      | .ldVxKk x kk => 0x6000 + 256 * x.val + kk.toNat
      | .addVxKk x kk => 0x7000 + 256 * x.val + kk.toNat
      | .ldVxVy x y => 0x8000 + 256 * x.val + 16 * y.val
      | .orVxVy x y => 0x8001 + 256 * x.val + 16 * y.val
      | .andVxVy x y => 0x8002 + 256 * x.val + 16 * y.val
      | .xorVxVy x y => 0x8003 + 256 * x.val + 16 * y.val
      | .addVxVy x y => 0x8004 + 256 * x.val + 16 * y.val
      | .sub x y => 0x8005 + 256 * x.val + 16 * y.val
      | .shr x y => 0x8006 + 256 * x.val + 16 * y.val
      | .subn x y => 0x8007 + 256 * x.val + 16 * y.val
      | .shl x y => 0x800E + 256 * x.val + 16 * y.val
      | .sneVxVy x y => 0x9000 + 256 * x.val + 16 * y.val
      | .ldINnn nnn => 0xA000 + nnn.toNat
      | .jpV0Nnn nnn => 0xB000 + nnn.toNat
      | .rnd x kk => 0xC000 + 256 * x.val + kk.toNat
      | .drw x y n => 0xD000 + 256 * x.val + 16 * y.val + n.val
      | .skp x => 0xE09E + 256 * x.val
      | .sknp x => 0xE0A1 + 256 * x.val
      | .ldVxDt x => 0xF007 + 256 * x.val
      | .ldVxK x => 0xF00A + 256 * x.val
      | .ldDtVx x => 0xF015 + 256 * x.val
      | .ldStVx x => 0xF018 + 256 * x.val
      | .addIVx x => 0xF01E + 256 * x.val
      | .ldFVx x => 0xF029 + 256 * x.val
      | .ldBVx x => 0xF033 + 256 * x.val
      | .ldMemIVx x => 0xF055 + 256 * x.val
      | .ldVxMemI x => 0xF065 + 256 * x.val

/-- R85: each instruction has one word. With the default decode, a word that decodes to an instruction is its encoding. -/
def Obligations.EncodeOfDecodedWordIsTheWord : Prop :=
  ∀ (w : Word) (i : Instr), decodeWord false w = some i → encode i = w

/-- R76: the words that decode to Unknown are those of the table, no more and no fewer. -/
def Obligations.UnknownWordsAreThoseOfTheTable : Prop :=
  ∀ w : Word,
    let family := w.toNat / 4096
    let low := w.toNat % 16
    let kk := w.toNat % 256
    decodeWord false w = none ↔
      (family = 0 ∧ w ≠ 0x00E0 ∧ w ≠ 0x00EE) ∨ (family = 5 ∧ low ≠ 0) ∨
      (family = 8 ∧ (8 ≤ low ∧ low ≤ 13 ∨ low = 15)) ∨ (family = 9 ∧ low ≠ 0) ∨
      (family = 14 ∧ kk ≠ 0x9E ∧ kk ≠ 0xA1) ∨
      (family = 15 ∧ kk ∉ [0x07, 0x0A, 0x15, 0x18, 0x1E, 0x29, 0x33, 0x55, 0x65])

/-- R77: with the nibble ignored, every word of families 5 and 9 is the skip of its `x` and `y` fields, and every other
word decodes as by default; by default it is not ignored (D11). -/
def Obligations.RelaxedDecodeIgnoresTheLowNibble : Prop :=
  Params.default.ignoreLowNibble = false ∧
  ∀ w : Word,
    (w.toNat / 4096 = 5 → ∃ x y : Reg, decodeWord true w = some (.seVxVy x y) ∧
      x.val = w.toNat / 256 % 16 ∧ y.val = w.toNat / 16 % 16) ∧
    (w.toNat / 4096 = 9 → ∃ x y : Reg, decodeWord true w = some (.sneVxVy x y) ∧
      x.val = w.toNat / 256 % 16 ∧ y.val = w.toNat / 16 % 16) ∧
    (w.toNat / 4096 ≠ 5 → w.toNat / 4096 ≠ 9 → decodeWord true w = decodeWord false w)

/-- R85: the 34 rows of the opcode map; no two rows match the same word, a word that decodes to an instruction matches
that instruction's row, and a word that is Unknown matches none. -/
def Obligations.OpcodeMapRowsAreDisjointAndComplete : Prop :=
  rows.length = 34 ∧
  (∀ (i j : Nat) (hi : i < rows.length) (hj : j < rows.length) (w : Word),
    rows[i].matches w = true → rows[j].matches w = true → i = j) ∧
  (∀ (w : Word) (i : Instr), decodeWord false w = some i → i.row ∈ rows ∧ i.row.matches w = true) ∧
  (∀ w : Word, decodeWord false w = none → ∀ r ∈ rows, r.matches w = false)

/-- A few words of the test vectors, one or more of each section of the instruction set, decode as written. That 0x5121
is Unknown is the spec's decision D11 (log 13), and that 0x01E0 is, its decision D10 (log 14). -/
def Obligations.SampleWordsDecode : Prop :=
  decodeWord false 0x00E0 = some .cls ∧ decodeWord false 0x1234 = some (.jp 0x234) ∧
  decodeWord false 0x3342 = some (.seVxKk 3 0x42) ∧ decodeWord false 0x8F25 = some (.sub 15 2) ∧
  decodeWord false 0xC50F = some (.rnd 5 0x0F) ∧ decodeWord false 0xA123 = some (.ldINnn 0x123) ∧
  decodeWord false 0xF255 = some (.ldMemIVx 2) ∧ decodeWord false 0xD015 = some (.drw 0 1 5) ∧
  decodeWord false 0xE1A1 = some (.sknp 1) ∧ decodeWord false 0xF418 = some (.ldStVx 4) ∧
  decodeWord false 0x5121 = none ∧ decodeWord false 0x01E0 = none

/-! ### The cycle -/

/-- R90 to R94: where the big-endian word at `pc` decodes to `i`, a step is `exec i` on the state with `pc` advanced by
2, then one tick of each timer. An error of `exec` is the outcome of the step, with no tick. -/
def Obligations.StepRunsTheDecodedInstruction : Prop :=
  ∀ (s : State) (i : Instr), s.pc.toNat ≤ 0xFFE →
    decodeWord s.params.ignoreLowNibble (s.M.read s.pc.toNat ++ s.M.read (s.pc.toNat + 1) : BitVec (8 + 8)) = some i →
    step s =
      match exec i { s with pc := s.pc + 2 } with
      | .next t => .next { t with DT := if t.DT = 0 then 0 else t.DT - 1, ST := if t.ST = 0 then 0 else t.ST - 1 }
      | .fault e => .fault e
      | .refused r => .refused r

/-- R217: a cycle of an unknown word completes as a no-op: `pc` advances by 2, the timers tick, nothing else of the
machine changes, and the report with `pc0` and the word is recorded (the spec's decision D2; the record is the model's,
log 5). -/
def Obligations.UnknownWordIsAReportedNoOp : Prop :=
  ∀ (s : State) (w : Word), fetch s = .word w → decodeWord s.params.ignoreLowNibble w = none →
    ∃ t, step s = .next t ∧ t.pc = s.pc + 2 ∧ t.DT.toNat = s.DT.toNat - 1 ∧ t.ST.toNat = s.ST.toNat - 1 ∧
      t.reports = { pc0 := s.pc, opcode := w } :: s.reports ∧ OnlyChanges [.pc, .DT, .ST, .reports] s t

/-- R91: a fetch is big-endian from `pc` and `pc + 1` where both are addresses; at `pc = 0xFFF` the cycle stops with
the offending address 0x1000 and above it with `pc` itself, with no opcode (the spec's decision D7). -/
def Obligations.FetchIsBoundsChecked : Prop :=
  ∀ s : State,
    (s.pc.toNat ≤ 0xFFE → ∃ w, fetch s = .word w ∧
      w.toNat = (s.M.read s.pc.toNat).toNat * 256 + (s.M.read (s.pc.toNat + 1)).toNat) ∧
    (s.pc.toNat = 0xFFF → step s = .fault (.memoryBounds 0x1000 s.pc none)) ∧
    (0xFFF < s.pc.toNat → step s = .fault (.memoryBounds s.pc.toNat s.pc none))

/-- R230, over every instruction: in a cycle that completes, each timer goes down by 1 and never below 0; the cycle of
`FX15` ticks the value it has just written to `DT`, and that of `FX18` the one it has just written to `ST`. -/
def Obligations.TimersTickOncePerCompletedCycle : Prop :=
  ∀ s t : State, step s = .next t →
    (∀ x, s.runs (.ldDtVx x) → t.DT.toNat = (s.reg x).toNat - 1) ∧
    ((∀ x, ¬ s.runs (.ldDtVx x)) → t.DT.toNat = s.DT.toNat - 1) ∧
    (∀ x, s.runs (.ldStVx x) → t.ST.toNat = (s.reg x).toNat - 1) ∧
    ((∀ x, ¬ s.runs (.ldStVx x)) → t.ST.toNat = s.ST.toNat - 1)

/-- R215, R216: an aborted cycle leaves the state as it was, and another cycle from it raises the same error again,
whatever the keys and the next random byte are (the spec's decision D1). -/
def Obligations.AbortedCycleChangesNothingAndRepeats : Prop :=
  ∀ (s : State) (e : Fault), step s = .fault e →
    cycle s = (s, .aborted e) ∧
    ∀ (keys : Vector Bool 16) (draws : Nat), step { s with K := keys, draws := draws } = .fault e

/-- R212: the instructions that raise an error in Execute, and on what; every other instruction completes from every
state. -/
def Obligations.InstructionsFaultOnlyAsListed : Prop :=
  ∀ (i : Instr) (s : State),
    (∃ e, exec i s = .fault e) ↔
      match i with
      | .ret => s.sp = 0
      | .call _ => s.sp = 16
      | .drw _ _ n => 0 < n.val ∧ 0xFFF < s.I.toNat + n.val - 1
      | .ldBVx _ => 0xFFF < s.I.toNat + 2
      | .ldMemIVx x | .ldVxMemI x => 0xFFF < s.I.toNat + x.val
      | .skp x | .sknp x => 15 < (s.reg x).toNat
      | .cls | .jp _ | .seVxKk _ _ | .sneVxKk _ _ | .seVxVy _ _ | .ldVxKk _ _ | .addVxKk _ _ | .ldVxVy _ _
      | .orVxVy _ _ | .andVxVy _ _ | .xorVxVy _ _ | .addVxVy _ _ | .sub _ _ | .shr _ _ | .subn _ _ | .shl _ _
      | .sneVxVy _ _ | .ldINnn _ | .jpV0Nnn _ | .rnd _ _ | .ldVxDt _ | .ldVxK _ | .ldDtVx _ | .ldStVx _
      | .addIVx _ | .ldFVx _ => False

/-- R79: no instruction is refused, and no step is: every state completes a cycle or stops with an error of R211. -/
def Obligations.NothingIsRefused : Prop :=
  (∀ (i : Instr) (s : State) (r : Refusal), exec i s ≠ .refused r) ∧ (∀ (s : State) (r : Refusal), step s ≠ .refused r)

/-! ### Who writes what: rules over every instruction -/

/-- R31: no instruction writes the keypad. The parameters are fixed for the life of the machine (log 1), and the record
of reports only grows (log 5). -/
def Obligations.NoStepWritesKeypadOrParams : Prop :=
  ∀ s t : State, step s = .next t → t.K = s.K ∧ t.params = s.params ∧ ∃ new, t.reports = new ++ s.reports

/-- `00E0` and `DXYN` are the only instructions that write the framebuffer. -/
def Obligations.OnlyClsAndDrwWriteTheFramebuffer : Prop :=
  ∀ s t : State, step s = .next t → ¬ s.runs .cls → (∀ x y n, ¬ s.runs (.drw x y n)) → t.FB = s.FB

/-- R50: `FX33` and `FX55` are the only instructions that write memory. -/
def Obligations.OnlyStoresWriteMemory : Prop :=
  ∀ s t : State, step s = .next t → (∀ x, ¬ s.runs (.ldBVx x)) → (∀ x, ¬ s.runs (.ldMemIVx x)) →
    ∀ a, t.M.read a = s.M.read a

/-- R28: only `2NNN` writes stack entries, and only `S[sp]`; only `2NNN` and `00EE` move `sp`, each by one. -/
def Obligations.OnlyCallAndReturnTouchTheStack : Prop :=
  ∀ s t : State, step s = .next t →
    (∀ j : Fin 16, ((∀ nnn, ¬ s.runs (.call nnn)) ∨ j.val ≠ s.sp.val) → t.S[j] = s.S[j]) ∧
    ((∃ nnn, s.runs (.call nnn)) → t.sp.val = s.sp.val + 1) ∧
    (s.runs .ret → t.sp.val + 1 = s.sp.val) ∧
    ((∀ nnn, ¬ s.runs (.call nnn)) → ¬ s.runs .ret → t.sp = s.sp)

/-- R24: `ANNN`, `FX1E` and `FX29` are the only instructions that write `I`; in particular no memory transfer does (the
spec's decision D20). -/
def Obligations.OnlyThreeInstructionsWriteI : Prop :=
  ∀ s t : State, step s = .next t → (∀ nnn, ¬ s.runs (.ldINnn nnn)) → (∀ x, ¬ s.runs (.addIVx x)) →
    (∀ x, ¬ s.runs (.ldFVx x)) → t.I = s.I

/-- R21, R22: the registers an instruction may write. `VF` is written by the flag writers `8XY4`..`8XY7`, `8XYE` and
`DXYN`, and by no other instruction except by naming it. -/
def Obligations.RegistersWrittenOnlyAsListed : Prop :=
  ∀ (i : Instr) (s t : State), exec i s = .next t →
    ∀ j : Reg, t.reg j ≠ s.reg j →
      match i with
      | .ldVxKk x _ | .addVxKk x _ | .rnd x _ | .ldVxDt x => j = x
      | .ldVxVy x _ | .orVxVy x _ | .andVxVy x _ | .xorVxVy x _ => j = x
      | .addVxVy x _ | .sub x _ | .shr x _ | .subn x _ | .shl x _ => j = x ∨ j = VF
      | .drw _ _ _ => j = VF
      | .ldVxK x => j = x ∧ ∃ k : Fin 16, s.K[k] = true
      | .ldVxMemI x => j.val ≤ x.val
      | .cls | .ret | .jp _ | .call _ | .seVxKk _ _ | .sneVxKk _ _ | .seVxVy _ _ | .sneVxVy _ _ | .ldINnn _
      | .jpV0Nnn _ | .skp _ | .sknp _ | .ldDtVx _ | .ldStVx _ | .addIVx _ | .ldFVx _ | .ldBVx _ | .ldMemIVx _ => False

/-! ### What cannot be observed -/

/-- R232: no instruction reads `ST`. Two states that differ in `ST` alone step alike, and the next states differ in
`ST` alone. -/
def Obligations.SoundTimerIsNotObservable : Prop :=
  ∀ (s : State) (b : Byte),
    (∀ t, step s = .next t → ∃ c, step { s with ST := b } = .next { t with ST := c }) ∧
    (∀ e, step s = .fault e → step { s with ST := b } = .fault e)

/-- R28: stack entries at `sp` and above cannot be observed (the spec's decision D31). Two states that differ in them
alone step alike, and the next states differ in them alone. -/
def Obligations.FreeStackEntriesAreNotObservable : Prop :=
  ∀ (s : State) (S' : Vector Word 16), (∀ j : Fin 16, j.val < s.sp.val → S'[j] = s.S[j]) →
    (∀ t, step s = .next t → ∃ T : Vector Word 16, step { s with S := S' } = .next { t with S := T } ∧
      ∀ j : Fin 16, j.val < t.sp.val → T[j] = t.S[j]) ∧
    (∀ e, step s = .fault e → step { s with S := S' } = .fault e)

/-- R31: only `EX9E`, `EXA1` and `FX0A` read the keypad. Running anything else, two states that differ in the keys alone
step alike, and the next states differ in the keys alone. -/
def Obligations.OnlyKeyInstructionsReadTheKeypad : Prop :=
  ∀ (s t : State) (keys : Vector Bool 16),
    (∀ x, ¬ s.runs (.skp x)) → (∀ x, ¬ s.runs (.sknp x)) → (∀ x, ¬ s.runs (.ldVxK x)) →
    step s = .next t → step { s with K := keys } = .next { t with K := keys }

/-! ### Control transfer -/

/-- R102: `1NNN` is the word `0x1000 + nnn`; it completes from every state with `pc = nnn`, and nothing else changes. A
jump to its own address repeats in a full cycle, so the timers keep ticking. -/
def Obligations.JumpSetsPc : Prop :=
  ∀ (nnn : Addr12) (s : State),
    (encode (.jp nnn)).toNat = 0x1000 + nnn.toNat ∧
    (∃ t, exec (.jp nnn) s = .next t ∧ t.pc.toNat = nnn.toNat ∧ OnlyChanges [.pc] s t) ∧
    (s.runs (.jp nnn) → nnn.toNat = s.pc.toNat →
      ∃ t, step s = .next t ∧ t.pc = s.pc ∧ t.DT.toNat = s.DT.toNat - 1 ∧ t.ST.toNat = s.ST.toNat - 1 ∧
        t.runs (.jp nnn))

/-- R108: `BNNN` is the word `0xB000 + nnn`; it completes from every state with `pc = V0 + nnn`, which is never cut, and
nothing else changes. A target above 0xFFE makes the next cycle's fetch stop. -/
def Obligations.ComputedJumpAddsV0 : Prop :=
  ∀ (nnn : Addr12) (s : State),
    (encode (.jpV0Nnn nnn)).toNat = 0xB000 + nnn.toNat ∧
    ∃ t, exec (.jpV0Nnn nnn) s = .next t ∧ t.pc.toNat = (s.reg 0).toNat + nnn.toNat ∧ OnlyChanges [.pc] s t ∧
      (0xFFE < (s.reg 0).toNat + nnn.toNat →
        step t = .fault (.memoryBounds (max ((s.reg 0).toNat + nnn.toNat) 0x1000) t.pc none))

/-- R103: with a free entry, `2NNN` pushes the advanced `pc` and goes to `nnn`; every other entry and every other
element stays. With `sp = 16` it is a stack overflow, the cycle aborts and the state is unchanged. -/
def Obligations.CallPushesAdvancedPc : Prop :=
  ∀ (nnn : Addr12) (s : State),
    (∀ h : s.sp.val < 16, ∃ t, exec (.call nnn) s = .next t ∧ t.S[s.sp.val] = s.pc ∧ t.sp.val = s.sp.val + 1 ∧
      t.pc.toNat = nnn.toNat ∧ (∀ j : Fin 16, j.val ≠ s.sp.val → t.S[j] = s.S[j]) ∧ OnlyChanges [.S, .sp, .pc] s t) ∧
    (s.sp.val = 16 → exec (.call nnn) s = .fault (.stackOverflow (s.pc - 2) (encode (.call nnn)))) ∧
    (s.sp.val = 16 → s.runs (.call nnn) →
      cycle s = (s, .aborted (.stackOverflow s.pc (encode (.call nnn)))))

/-- R101: with an entry on the stack, `00EE` goes to the top entry and `sp` goes down by one; the entry is not cleared
and nothing else changes. With `sp = 0` it is a stack underflow, the cycle aborts and the state is unchanged. -/
def Obligations.ReturnPopsTheTopEntry : Prop :=
  ∀ s : State,
    (∀ j : Fin 16, s.sp.val = j.val + 1 → ∃ t, exec .ret s = .next t ∧ t.pc = s.S[j] ∧ t.sp.val = j.val ∧
      OnlyChanges [.sp, .pc] s t) ∧
    (s.sp.val = 0 → exec .ret s = .fault (.stackUnderflow (s.pc - 2) 0x00EE)) ∧
    (s.sp.val = 0 → s.runs .ret → cycle s = (s, .aborted (.stackUnderflow s.pc 0x00EE)))

/-- The source's property W7: a return after a call, wherever `pc` has gone in between with the stack as the call left
it, goes to exactly the address that followed the call, and `sp` is what it was. -/
def Obligations.ReturnUndoesCall : Prop :=
  ∀ (nnn : Addr12) (s t : State) (pc : Word), exec (.call nnn) s = .next t →
    ∃ u, exec .ret { t with pc := pc } = .next u ∧ u.pc = s.pc ∧ u.sp = s.sp

/-- R104, R105: `3XKK` and `4XKK` are the words `0x3000 + 256 x + kk` and `0x4000 + 256 x + kk`; they complete from every
state, `pc` moves 2 further exactly when the condition holds, and nothing else changes. From `pc0 = 0xFFC` (an advanced
`pc` of 0xFFE) a skip leaves `pc = 0x1000`, where the next fetch stops. -/
def Obligations.SkipsOnImmediate : Prop :=
  ∀ (x : Reg) (kk : Byte) (s : State),
    ((encode (.seVxKk x kk)).toNat = 0x3000 + 256 * x.val + kk.toNat ∧
      ∃ t, exec (.seVxKk x kk) s = .next t ∧ OnlyChanges [.pc] s t ∧
        (s.reg x = kk → t.pc = s.pc + 2) ∧ (s.reg x ≠ kk → t.pc = s.pc) ∧
        (s.reg x = kk → s.pc = 0xFFE → step t = .fault (.memoryBounds 0x1000 0x1000 none))) ∧
    ((encode (.sneVxKk x kk)).toNat = 0x4000 + 256 * x.val + kk.toNat ∧
      ∃ t, exec (.sneVxKk x kk) s = .next t ∧ OnlyChanges [.pc] s t ∧
        (s.reg x ≠ kk → t.pc = s.pc + 2) ∧ (s.reg x = kk → t.pc = s.pc) ∧
        (s.reg x ≠ kk → s.pc = 0xFFE → step t = .fault (.memoryBounds 0x1000 0x1000 none)))

/-- R106, R107: the skips on two registers complete from every state; `pc` moves 2 further exactly when the condition
holds, and nothing else changes. -/
def Obligations.SkipsOnRegisters : Prop :=
  ∀ (x y : Reg) (s : State),
    (∃ t, exec (.seVxVy x y) s = .next t ∧ OnlyChanges [.pc] s t ∧
      (s.reg x = s.reg y → t.pc = s.pc + 2) ∧ (s.reg x ≠ s.reg y → t.pc = s.pc)) ∧
    (∃ t, exec (.sneVxVy x y) s = .next t ∧ OnlyChanges [.pc] s t ∧
      (s.reg x ≠ s.reg y → t.pc = s.pc + 2) ∧ (s.reg x = s.reg y → t.pc = s.pc))

/-! ### Loads and arithmetic -/

/-- R122, R124: `6XKK` and `8XY0` are the words `0x6000 + 256 x + kk` and `0x8000 + 256 x + 16 y`; they complete from
every state with `V[x]` the immediate or `V[y]`, and nothing else changes, `VF` included. -/
def Obligations.LoadsSetTheRegister : Prop :=
  ∀ (x y : Reg) (kk : Byte) (s : State),
    (encode (.ldVxKk x kk)).toNat = 0x6000 + 256 * x.val + kk.toNat ∧
    (encode (.ldVxVy x y)).toNat = 0x8000 + 256 * x.val + 16 * y.val ∧
    (∃ t, exec (.ldVxKk x kk) s = .next t ∧ t.reg x = kk ∧ RegsKeptBut [x] s t ∧ OnlyChanges [.V] s t) ∧
    (∃ t, exec (.ldVxVy x y) s = .next t ∧ t.reg x = s.reg y ∧ RegsKeptBut [x] s t ∧ OnlyChanges [.V] s t)

/-- R123: `7XKK` is the word `0x7000 + 256 x + kk`; it completes from every state with `V[x] + kk` modulo 256 and no flag,
and nothing else changes. -/
def Obligations.AddImmediateWrapsWithoutFlag : Prop :=
  ∀ (x : Reg) (kk : Byte) (s : State),
    (encode (.addVxKk x kk)).toNat = 0x7000 + 256 * x.val + kk.toNat ∧
    ∃ t, exec (.addVxKk x kk) s = .next t ∧ (t.reg x).toNat = ((s.reg x).toNat + kk.toNat) % 256 ∧
      RegsKeptBut [x] s t ∧ OnlyChanges [.V] s t

/-- R125 to R127: `8XY1`, `8XY2` and `8XY3` complete from every state with the bitwise result in `V[x]`; nothing else
changes, and `VF` only if it is `V[x]` (the spec's decision D21). -/
def Obligations.LogicalOperationsSetNoFlag : Prop :=
  ∀ (x y : Reg) (s : State),
    (∃ t, exec (.orVxVy x y) s = .next t ∧ (∀ b, (t.reg x).getLsbD b = ((s.reg x).getLsbD b || (s.reg y).getLsbD b)) ∧
      RegsKeptBut [x] s t ∧ OnlyChanges [.V] s t) ∧
    (∃ t, exec (.andVxVy x y) s = .next t ∧ (∀ b, (t.reg x).getLsbD b = ((s.reg x).getLsbD b && (s.reg y).getLsbD b)) ∧
      RegsKeptBut [x] s t ∧ OnlyChanges [.V] s t) ∧
    (∃ t, exec (.xorVxVy x y) s = .next t ∧ (∀ b, (t.reg x).getLsbD b = ((s.reg x).getLsbD b ^^ (s.reg y).getLsbD b)) ∧
      RegsKeptBut [x] s t ∧ OnlyChanges [.V] s t)

/-- R128: `8XY4` is the word `0x8004 + 256 x + 16 y`; it completes from every state, `V[x]` is the sum modulo 256, and
`VF` is 1 exactly when the unsigned sum exceeds 255. With `x = 15` the sum stays in `VF` and the carry is lost
(statement order, the spec's decision D12, log 9). Nothing else changes. -/
def Obligations.AddSetsCarry : Prop :=
  ∀ (x y : Reg) (s : State),
    (encode (.addVxVy x y)).toNat = 0x8004 + 256 * x.val + 16 * y.val ∧
    ∃ t, exec (.addVxVy x y) s = .next t ∧ (t.reg x).toNat = ((s.reg x).toNat + (s.reg y).toNat) % 256 ∧
      (x ≠ VF → t.reg VF = if (s.reg x).toNat + (s.reg y).toNat > 255 then 1 else 0) ∧
      RegsKeptBut [x, VF] s t ∧ OnlyChanges [.V] s t

/-- R129: `8XY5` completes from every state. With `x`, `y` below 15, `VF` is 1 exactly when `V[x] >= V[y]` and `V[x]` is
the difference modulo 256. With 15 among them the difference is taken with the flag just written, which with `x = 15`
is then lost (statement order, the spec's decision D12). Nothing else changes. -/
def Obligations.SubSetsNoBorrow : Prop :=
  ∀ (x y : Reg) (s : State),
    let f : Byte := if (s.reg x).toNat ≥ (s.reg y).toNat then 1 else 0
    ∃ t, exec (.sub x y) s = .next t ∧ (x ≠ VF → t.reg VF = f) ∧
      (x ≠ VF → y ≠ VF → (t.reg x).toNat = ((s.reg x).toNat + 256 - (s.reg y).toNat) % 256) ∧
      (x ≠ VF → y = VF → (t.reg x).toNat = ((s.reg x).toNat + 256 - f.toNat) % 256) ∧
      (x = VF → y ≠ VF → (t.reg VF).toNat = (f.toNat + 256 - (s.reg y).toNat) % 256) ∧
      (x = VF → y = VF → t.reg VF = 0) ∧
      RegsKeptBut [x, VF] s t ∧ OnlyChanges [.V] s t

/-- R131: `8XY7` completes from every state. With `x`, `y` below 15, `VF` is 1 exactly when `V[y] >= V[x]` and `V[x]` is
`V[y] - V[x]` modulo 256. With 15 among them the difference is taken with the flag just written, which with `x = 15`
is then lost (statement order, the spec's decision D12). Nothing else changes. -/
def Obligations.SubnSetsNoBorrow : Prop :=
  ∀ (x y : Reg) (s : State),
    let f : Byte := if (s.reg y).toNat ≥ (s.reg x).toNat then 1 else 0
    ∃ t, exec (.subn x y) s = .next t ∧ (x ≠ VF → t.reg VF = f) ∧
      (x ≠ VF → y ≠ VF → (t.reg x).toNat = ((s.reg y).toNat + 256 - (s.reg x).toNat) % 256) ∧
      (x ≠ VF → y = VF → (t.reg x).toNat = (f.toNat + 256 - (s.reg x).toNat) % 256) ∧
      (x = VF → y ≠ VF → (t.reg VF).toNat = ((s.reg y).toNat + 256 - f.toNat) % 256) ∧
      (x = VF → y = VF → t.reg VF = 0) ∧
      RegsKeptBut [x, VF] s t ∧ OnlyChanges [.V] s t

/-- R130: `8XY6` completes from every state. The operand is `V[x]`, or `V[y]` with `SHIFT_SOURCE = vy` (D13). `V[x]` is
it shifted right by 1 and `VF` its bit 0; with `x = 15`, `VF` ends 0 (statement order, D12). Nothing else changes. -/
def Obligations.ShiftRightMovesOutBitZero : Prop :=
  ∀ (x y : Reg) (s : State),
    let v : Byte := if s.params.shiftSource = .vy then s.reg y else s.reg x
    ∃ t, exec (.shr x y) s = .next t ∧
      (x ≠ VF → (t.reg x).toNat = v.toNat / 2 ∧ (t.reg VF).toNat = v.toNat % 2) ∧ (x = VF → t.reg VF = 0) ∧
      RegsKeptBut [x, VF] s t ∧ OnlyChanges [.V] s t

/-- R132: `8XYE` completes from every state. The operand is `V[x]`, or `V[y]` with `SHIFT_SOURCE = vy` (D13). `V[x]` is
it doubled modulo 256 and `VF` its bit 7; with `x = 15`, `VF` ends twice its bit 7 (statement order, D12). Nothing else
changes. -/
def Obligations.ShiftLeftMovesOutBitSeven : Prop :=
  ∀ (x y : Reg) (s : State),
    let v : Byte := if s.params.shiftSource = .vy then s.reg y else s.reg x
    ∃ t, exec (.shl x y) s = .next t ∧
      (x ≠ VF → (t.reg x).toNat = v.toNat * 2 % 256 ∧ (t.reg VF).toNat = v.toNat / 128) ∧
      (x = VF → (t.reg VF).toNat = v.toNat / 128 * 2) ∧
      RegsKeptBut [x, VF] s t ∧ OnlyChanges [.V] s t

/-- R133: `CXKK` completes from every state with one random byte, whatever it is, under the mask `kk`: a bit clear in
`kk` is clear in `V[x]`. Exactly one byte is drawn and nothing else changes. -/
def Obligations.RandomByteIsMasked : Prop :=
  ∀ (x : Reg) (kk : Byte) (s : State),
    ∃ t, exec (.rnd x kk) s = .next t ∧ t.reg x = (Config.randomByte s.draws &&& kk) ∧
      (∀ b, kk.getLsbD b = false → (t.reg x).getLsbD b = false) ∧ t.draws = s.draws + 1 ∧
      RegsKeptBut [x] s t ∧ OnlyChanges [.V, .draws] s t

/-! ### The index register and memory -/

/-- R151 whole, and of R152 the result: `ANNN` is the word `0xA000 + nnn`; `ANNN` and `FX1E` complete from every state, and
`I` is the immediate, or the sum modulo 65536 with no flag. Nothing else changes. -/
def Obligations.IndexLoadAndAdd : Prop :=
  ∀ (nnn : Addr12) (x : Reg) (s : State),
    (encode (.ldINnn nnn)).toNat = 0xA000 + nnn.toNat ∧
    (∃ t, exec (.ldINnn nnn) s = .next t ∧ t.I.toNat = nnn.toNat ∧ OnlyChanges [.I] s t) ∧
    (∃ t, exec (.addIVx x) s = .next t ∧ t.I.toNat = (s.I.toNat + (s.reg x).toNat) % 65536 ∧ OnlyChanges [.I] s t)

/-- R153: `FX29` completes from every state; `I` is `0x050 + 5 * V[x]`, with the full byte (the spec's decision D19).
Nothing else changes. -/
def Obligations.GlyphAddressUsesTheFullByte : Prop :=
  ∀ (x : Reg) (s : State),
    ∃ t, exec (.ldFVx x) s = .next t ∧ t.I.toNat = 0x050 + 5 * (s.reg x).toNat ∧ OnlyChanges [.I] s t

/-- R154: where the window of three bytes from `I` is inside the memory, `FX33` stores hundreds, tens and ones of `V[x]`
at `I`, `I + 1`, `I + 2`; every other byte and every other element stays, `I` included (the spec's decision D20, log 18).
Where it is not, it stops with the first address above 0xFFF (D1, D8). -/
def Obligations.BcdStoresThreeDigits : Prop :=
  ∀ (x : Reg) (s : State), s.M.wf = true →
    (s.I.toNat + 2 ≤ 0xFFF → ∃ t, exec (.ldBVx x) s = .next t ∧
      (t.M.read s.I.toNat).toNat = (s.reg x).toNat / 100 ∧
      (t.M.read (s.I.toNat + 1)).toNat = (s.reg x).toNat / 10 % 10 ∧
      (t.M.read (s.I.toNat + 2)).toNat = (s.reg x).toNat % 10 ∧
      (∀ a, a < s.I.toNat ∨ s.I.toNat + 2 < a → t.M.read a = s.M.read a) ∧ OnlyChanges [.M] s t) ∧
    (0xFFF < s.I.toNat + 2 →
      exec (.ldBVx x) s = .fault (.memoryBounds (max s.I.toNat 0x1000) (s.pc - 2) (some (encode (.ldBVx x)))))

/-- R155: where the window `I .. I + x` is inside the memory, `FX55` stores `V[j]` at `I + j` for every `j <= x`; every
other byte and every other element stays, `I` included (the spec's decision D20). Where it is not, it stops with the
first address above 0xFFF and stores nothing (D1, D8). -/
def Obligations.StoreRegistersWritesTheWindow : Prop :=
  ∀ (x : Reg) (s : State), s.M.wf = true →
    (s.I.toNat + x.val ≤ 0xFFF → ∃ t, exec (.ldMemIVx x) s = .next t ∧
      (∀ j : Reg, j.val ≤ x.val → t.M.read (s.I.toNat + j.val) = s.reg j) ∧
      (∀ a, a < s.I.toNat ∨ s.I.toNat + x.val < a → t.M.read a = s.M.read a) ∧ OnlyChanges [.M] s t) ∧
    (0xFFF < s.I.toNat + x.val →
      exec (.ldMemIVx x) s = .fault (.memoryBounds (max s.I.toNat 0x1000) (s.pc - 2) (some (encode (.ldMemIVx x)))))

/-- R156: where the window `I .. I + x` is inside the memory, `FX65` loads `M[I + j]` into `V[j]` for every `j <= x`;
every other register and every other element stays, `I` included (the spec's decision D20). Where it is not, it stops
with the first address above 0xFFF and loads nothing (D1, D8). -/
def Obligations.LoadRegistersReadsTheWindow : Prop :=
  ∀ (x : Reg) (s : State),
    (s.I.toNat + x.val ≤ 0xFFF → ∃ t, exec (.ldVxMemI x) s = .next t ∧
      (∀ j : Reg, j.val ≤ x.val → t.reg j = s.M.read (s.I.toNat + j.val)) ∧
      (∀ j : Reg, x.val < j.val → t.reg j = s.reg j) ∧ OnlyChanges [.V] s t) ∧
    (0xFFF < s.I.toNat + x.val →
      exec (.ldVxMemI x) s = .fault (.memoryBounds (max s.I.toNat 0x1000) (s.pc - 2) (some (encode (.ldVxMemI x)))))

/-- The source's property W4: `FX55`, then any change of the registers, then `FX65` from the same `I`, restores the
stored registers exactly. -/
def Obligations.StoreThenLoadRestoresRegisters : Prop :=
  ∀ (x : Reg) (s t : State) (V' : Vector Byte 16), s.M.wf = true → exec (.ldMemIVx x) s = .next t →
    ∃ u, exec (.ldVxMemI x) { t with V := V' } = .next u ∧
      (∀ j : Reg, j.val ≤ x.val → u.reg j = s.reg j) ∧ (∀ j : Reg, x.val < j.val → u.reg j = V'[j])

/-! ### The framebuffer -/

/-- R171: `00E0` completes from every state with every pixel 0; nothing else changes, and the readout is then
`PIXEL_OFF` in every word. -/
def Obligations.ClearScreenTurnsEveryPixelOff : Prop :=
  ∀ s : State, ∃ t, exec .cls s = .next t ∧ (∀ y x, t.FB.pixel y x = false) ∧ OnlyChanges [.FB] s t ∧
    ∀ k : Fin 2048, (readFramebuffer t)[k] = s.params.pixelOff

/-- R172, R173: `DXYN` completes where its sprite is inside the memory (or has no row), under either setting of
`DRAW_EDGE`. A pixel is toggled exactly where a set sprite bit lands, and `VF` is 1 exactly where one of them was set
before. Nothing else changes. (The spec's decisions D14 to D16.) -/
def Obligations.DrawXorsTheSpriteAndReportsCollision : Prop :=
  ∀ (x y : Reg) (n : Fin 16) (s : State), (n.val = 0 ∨ s.I.toNat + n.val - 1 ≤ 0xFFF) →
    ∃ t, exec (.drw x y n) s = .next t ∧
      (∀ py px, s.drawHits x y n py px → t.FB.pixel py px = !s.FB.pixel py px) ∧
      (∀ py px, ¬ s.drawHits x y n py px → t.FB.pixel py px = s.FB.pixel py px) ∧
      ((∃ py px, s.drawHits x y n py px ∧ s.FB.pixel py px = true) → t.reg VF = 1) ∧
      ((∀ py px, s.drawHits x y n py px → s.FB.pixel py px = false) → t.reg VF = 0) ∧
      RegsKeptBut [VF] s t ∧ OnlyChanges [.V, .FB] s t

/-- R172: a sprite that leaves the memory stops `DXYN` with the first address above 0xFFF, and the cycle changes nothing
(the spec's decisions D1, D8). -/
def Obligations.DrawPastMemoryStops : Prop :=
  ∀ (x y : Reg) (n : Fin 16) (s : State), 0 < n.val → 0xFFF < s.I.toNat + n.val - 1 →
    exec (.drw x y n) s = .fault (.memoryBounds (max s.I.toNat 0x1000) (s.pc - 2) (some (encode (.drw x y n)))) ∧
    (s.runs (.drw x y n) →
      cycle s = (s, .aborted (.memoryBounds (max s.I.toNat 0x1000) s.pc (some (encode (.drw x y n))))))

/-- The source's property W8, for origin registers other than `VF`: the same draw twice gives back the framebuffer, and
the second sets `VF` to 1 exactly where the first turned a pixel on. With `n = 0` both draw nothing and clear `VF` (the
spec's decision D15, log 17). The edges are under either `DRAW_EDGE` (D14, log 12). -/
def Obligations.DrawingTwiceRestoresTheFramebuffer : Prop :=
  ∀ (x y : Reg) (n : Fin 16) (s t : State), x ≠ VF → y ≠ VF → exec (.drw x y n) s = .next t →
    ∃ u, exec (.drw x y n) t = .next u ∧ u.FB = s.FB ∧
      ((∃ py px, s.drawHits x y n py px ∧ s.FB.pixel py px = false) → u.reg VF = 1) ∧
      ((∀ py px, s.drawHits x y n py px → s.FB.pixel py px = true) → u.reg VF = 0)

/-- R33: word `y * 64 + x` of the readout is `PIXEL_ON` where the pixel is set and `PIXEL_OFF` where it is not (the
parameters of the spec's decision D29). -/
def Obligations.ReadoutIsRowMajor : Prop :=
  ∀ (s : State) (y : Fin 32) (x : Fin 64),
    (readFramebuffer s)[y.val * 64 + x.val]'(by omega) =
      if s.FB.pixel y x then s.params.pixelOn else s.params.pixelOff

/-! ### Keypad and timers -/

/-- R190 to R192: with `V[x]` naming a key, `EX9E` and `EXA1` complete; `pc` moves 2 further exactly when the key is
down, or not down; nothing else changes. With `V[x]` above 15 each stops with `V[x]` as the address (the spec's decision
D17). -/
def Obligations.KeySkipsReadTheNamedKey : Prop :=
  ∀ (x : Reg) (s : State),
    (∀ k : Fin 16, (s.reg x).toNat = k.val →
      (∃ t, exec (.skp x) s = .next t ∧ OnlyChanges [.pc] s t ∧
        (s.K[k] = true → t.pc = s.pc + 2) ∧ (s.K[k] = false → t.pc = s.pc)) ∧
      (∃ t, exec (.sknp x) s = .next t ∧ OnlyChanges [.pc] s t ∧
        (s.K[k] = false → t.pc = s.pc + 2) ∧ (s.K[k] = true → t.pc = s.pc))) ∧
    (15 < (s.reg x).toNat →
      exec (.skp x) s = .fault (.memoryBounds (s.reg x).toNat (s.pc - 2) (some (encode (.skp x)))) ∧
      exec (.sknp x) s = .fault (.memoryBounds (s.reg x).toNat (s.pc - 2) (some (encode (.sknp x)))))

/-- R194: `FX0A` completes from every state. With a key down, `V[x]` is the lowest one's index (the spec's decision D18)
and nothing else changes; with none down, `pc` goes back to the instruction and nothing else changes, so its step runs
it again with `pc` as it was. -/
def Obligations.KeyWaitTakesTheLowestKeyOrWaits : Prop :=
  ∀ (x : Reg) (s : State),
    (∀ k : Fin 16, s.K[k] = true → (∀ j : Fin 16, j < k → s.K[j] = false) →
      ∃ t, exec (.ldVxK x) s = .next t ∧ (t.reg x).toNat = k.val ∧ RegsKeptBut [x] s t ∧ OnlyChanges [.V] s t) ∧
    ((∀ k : Fin 16, s.K[k] = false) →
      ∃ t, exec (.ldVxK x) s = .next t ∧ t.pc = s.pc - 2 ∧ OnlyChanges [.pc] s t) ∧
    ((∀ k : Fin 16, s.K[k] = false) → s.runs (.ldVxK x) → ∃ t, step s = .next t ∧ t.pc = s.pc)

/-- R193, R195, R196: the timer instructions complete from every state; `FX07` copies `DT`, as the cycle before left it,
to `V[x]`, `FX15` copies `V[x]` to `DT` and `FX18` to `ST`. Nothing else changes in Execute. -/
def Obligations.TimerTransfers : Prop :=
  ∀ (x : Reg) (s : State),
    (∃ t, exec (.ldVxDt x) s = .next t ∧ t.reg x = s.DT ∧ RegsKeptBut [x] s t ∧ OnlyChanges [.V] s t) ∧
    (∃ t, exec (.ldDtVx x) s = .next t ∧ t.DT = s.reg x ∧ OnlyChanges [.DT] s t) ∧
    (∃ t, exec (.ldStVx x) s = .next t ∧ t.ST = s.reg x ∧ OnlyChanges [.ST] s t)

/-! ### The host's operations and the end of a run -/

/-- R245: `LoadProgram` accepts an image of at most 3584 bytes; its bytes are then at 0x200 and up and everything else
stays. A longer image is a `LoadError` with its length (the edge cases are the spec's decision D26). -/
def Obligations.LoadProgramCopiesTheImage : Prop :=
  ∀ (image : List Byte) (s : State), s.M.wf = true →
    (image.length ≤ 3584 → ∃ t, loadProgram image s = .next t ∧
      (∀ (j : Nat) (h : j < image.length), t.M.read (0x200 + j) = image[j]) ∧
      (∀ a, a < 0x200 ∨ 0x200 + image.length ≤ a → t.M.read a = s.M.read a) ∧ OnlyChanges [.M] s t) ∧
    (3584 < image.length → loadProgram image s = .fault (.loadError image.length))

/-- R240: construction fixes `pc` and the fontset whatever the unnamed elements hold (`RESET_FILL`); with the defaults
it is the reset state. -/
def Obligations.ConstructionFixesPcAndFont : Prop :=
  construct Params.default Config.font .zero = State.reset ∧
  ∀ (params : Params) (font : List Byte) (draw : State), fontWellFormed font = true → draw.M.wf = true →
    let t := construct params font (.arbitrary draw)
    t.pc = 0x200 ∧ (∀ (j : Nat) (h : j < font.length), t.M.read (0x050 + j) = font[j]) ∧
    (∀ a, a < 0x050 ∨ 0x0A0 ≤ a → t.M.read a = draw.M.read a) ∧ t.params = params ∧
    OnlyChanges [.pc, .M, .params, .reports] draw t

/-- R263: from a program at rest (`1NNN` at its own address) every cycle completes, changes only `DT` and `ST`, each by
one tick, and leaves the program at rest. -/
def Obligations.AtRestOnlyTheTimersChange : Prop :=
  ∀ s : State, s.atRest →
    ∃ t, step s = .next t ∧ OnlyChanges [.DT, .ST] s t ∧ t.DT.toNat = s.DT.toNat - 1 ∧
      t.ST.toNat = s.ST.toNat - 1 ∧ t.atRest
end

