-- ==== Sys2Proof/Laws/State.lean ====
section
/-!
SUPPORT. One lemma per field per update of the state, so that no proof unfolds a record update.
-/

namespace Sys2Proof.Machine

variable (s : State)

/-! ### `State.setV` -/

@[simp] theorem State.setV_V (x : Reg) (b : Byte) : (s.setV x b).V = s.V.set x.val b x.isLt := rfl
@[simp] theorem State.setV_I (x : Reg) (b : Byte) : (s.setV x b).I = s.I := rfl
@[simp] theorem State.setV_pc (x : Reg) (b : Byte) : (s.setV x b).pc = s.pc := rfl
@[simp] theorem State.setV_sp (x : Reg) (b : Byte) : (s.setV x b).sp = s.sp := rfl
@[simp] theorem State.setV_S (x : Reg) (b : Byte) : (s.setV x b).S = s.S := rfl
@[simp] theorem State.setV_DT (x : Reg) (b : Byte) : (s.setV x b).DT = s.DT := rfl
@[simp] theorem State.setV_ST (x : Reg) (b : Byte) : (s.setV x b).ST = s.ST := rfl
@[simp] theorem State.setV_K (x : Reg) (b : Byte) : (s.setV x b).K = s.K := rfl
@[simp] theorem State.setV_FB (x : Reg) (b : Byte) : (s.setV x b).FB = s.FB := rfl
@[simp] theorem State.setV_M (x : Reg) (b : Byte) : (s.setV x b).M = s.M := rfl
@[simp] theorem State.setV_params (x : Reg) (b : Byte) : (s.setV x b).params = s.params := rfl
@[simp] theorem State.setV_draws (x : Reg) (b : Byte) : (s.setV x b).draws = s.draws := rfl
@[simp] theorem State.setV_reports (x : Reg) (b : Byte) : (s.setV x b).reports = s.reports := rfl

/-! ### `State.setRegs` -/

@[simp] theorem State.setRegs_V (v : Vector Byte 16) : (s.setRegs v).V = v := rfl
@[simp] theorem State.setRegs_I (v : Vector Byte 16) : (s.setRegs v).I = s.I := rfl
@[simp] theorem State.setRegs_pc (v : Vector Byte 16) : (s.setRegs v).pc = s.pc := rfl
@[simp] theorem State.setRegs_sp (v : Vector Byte 16) : (s.setRegs v).sp = s.sp := rfl
@[simp] theorem State.setRegs_S (v : Vector Byte 16) : (s.setRegs v).S = s.S := rfl
@[simp] theorem State.setRegs_DT (v : Vector Byte 16) : (s.setRegs v).DT = s.DT := rfl
@[simp] theorem State.setRegs_ST (v : Vector Byte 16) : (s.setRegs v).ST = s.ST := rfl
@[simp] theorem State.setRegs_K (v : Vector Byte 16) : (s.setRegs v).K = s.K := rfl
@[simp] theorem State.setRegs_FB (v : Vector Byte 16) : (s.setRegs v).FB = s.FB := rfl
@[simp] theorem State.setRegs_M (v : Vector Byte 16) : (s.setRegs v).M = s.M := rfl
@[simp] theorem State.setRegs_params (v : Vector Byte 16) : (s.setRegs v).params = s.params := rfl
@[simp] theorem State.setRegs_draws (v : Vector Byte 16) : (s.setRegs v).draws = s.draws := rfl
@[simp] theorem State.setRegs_reports (v : Vector Byte 16) : (s.setRegs v).reports = s.reports := rfl

/-! ### `State.setI` -/

@[simp] theorem State.setI_V (a : Word) : (s.setI a).V = s.V := rfl
@[simp] theorem State.setI_I (a : Word) : (s.setI a).I = a := rfl
@[simp] theorem State.setI_pc (a : Word) : (s.setI a).pc = s.pc := rfl
@[simp] theorem State.setI_sp (a : Word) : (s.setI a).sp = s.sp := rfl
@[simp] theorem State.setI_S (a : Word) : (s.setI a).S = s.S := rfl
@[simp] theorem State.setI_DT (a : Word) : (s.setI a).DT = s.DT := rfl
@[simp] theorem State.setI_ST (a : Word) : (s.setI a).ST = s.ST := rfl
@[simp] theorem State.setI_K (a : Word) : (s.setI a).K = s.K := rfl
@[simp] theorem State.setI_FB (a : Word) : (s.setI a).FB = s.FB := rfl
@[simp] theorem State.setI_M (a : Word) : (s.setI a).M = s.M := rfl
@[simp] theorem State.setI_params (a : Word) : (s.setI a).params = s.params := rfl
@[simp] theorem State.setI_draws (a : Word) : (s.setI a).draws = s.draws := rfl
@[simp] theorem State.setI_reports (a : Word) : (s.setI a).reports = s.reports := rfl

/-! ### `State.setPc` -/

@[simp] theorem State.setPc_V (a : Word) : (s.setPc a).V = s.V := rfl
@[simp] theorem State.setPc_I (a : Word) : (s.setPc a).I = s.I := rfl
@[simp] theorem State.setPc_pc (a : Word) : (s.setPc a).pc = a := rfl
@[simp] theorem State.setPc_sp (a : Word) : (s.setPc a).sp = s.sp := rfl
@[simp] theorem State.setPc_S (a : Word) : (s.setPc a).S = s.S := rfl
@[simp] theorem State.setPc_DT (a : Word) : (s.setPc a).DT = s.DT := rfl
@[simp] theorem State.setPc_ST (a : Word) : (s.setPc a).ST = s.ST := rfl
@[simp] theorem State.setPc_K (a : Word) : (s.setPc a).K = s.K := rfl
@[simp] theorem State.setPc_FB (a : Word) : (s.setPc a).FB = s.FB := rfl
@[simp] theorem State.setPc_M (a : Word) : (s.setPc a).M = s.M := rfl
@[simp] theorem State.setPc_params (a : Word) : (s.setPc a).params = s.params := rfl
@[simp] theorem State.setPc_draws (a : Word) : (s.setPc a).draws = s.draws := rfl
@[simp] theorem State.setPc_reports (a : Word) : (s.setPc a).reports = s.reports := rfl

/-! ### `State.push` -/

@[simp] theorem State.push_V (a : Word) (h : s.sp.val < 16) : (s.push a h).V = s.V := rfl
@[simp] theorem State.push_I (a : Word) (h : s.sp.val < 16) : (s.push a h).I = s.I := rfl
@[simp] theorem State.push_pc (a : Word) (h : s.sp.val < 16) : (s.push a h).pc = s.pc := rfl
@[simp] theorem State.push_sp (a : Word) (h : s.sp.val < 16) : (s.push a h).sp = ⟨s.sp.val + 1, by omega⟩ := rfl
@[simp] theorem State.push_S (a : Word) (h : s.sp.val < 16) : (s.push a h).S = s.S.set s.sp.val a h := rfl
@[simp] theorem State.push_DT (a : Word) (h : s.sp.val < 16) : (s.push a h).DT = s.DT := rfl
@[simp] theorem State.push_ST (a : Word) (h : s.sp.val < 16) : (s.push a h).ST = s.ST := rfl
@[simp] theorem State.push_K (a : Word) (h : s.sp.val < 16) : (s.push a h).K = s.K := rfl
@[simp] theorem State.push_FB (a : Word) (h : s.sp.val < 16) : (s.push a h).FB = s.FB := rfl
@[simp] theorem State.push_M (a : Word) (h : s.sp.val < 16) : (s.push a h).M = s.M := rfl
@[simp] theorem State.push_params (a : Word) (h : s.sp.val < 16) : (s.push a h).params = s.params := rfl
@[simp] theorem State.push_draws (a : Word) (h : s.sp.val < 16) : (s.push a h).draws = s.draws := rfl
@[simp] theorem State.push_reports (a : Word) (h : s.sp.val < 16) : (s.push a h).reports = s.reports := rfl

/-! ### `State.setSp` -/

@[simp] theorem State.setSp_V (n : Fin 17) : (s.setSp n).V = s.V := rfl
@[simp] theorem State.setSp_I (n : Fin 17) : (s.setSp n).I = s.I := rfl
@[simp] theorem State.setSp_pc (n : Fin 17) : (s.setSp n).pc = s.pc := rfl
@[simp] theorem State.setSp_sp (n : Fin 17) : (s.setSp n).sp = n := rfl
@[simp] theorem State.setSp_S (n : Fin 17) : (s.setSp n).S = s.S := rfl
@[simp] theorem State.setSp_DT (n : Fin 17) : (s.setSp n).DT = s.DT := rfl
@[simp] theorem State.setSp_ST (n : Fin 17) : (s.setSp n).ST = s.ST := rfl
@[simp] theorem State.setSp_K (n : Fin 17) : (s.setSp n).K = s.K := rfl
@[simp] theorem State.setSp_FB (n : Fin 17) : (s.setSp n).FB = s.FB := rfl
@[simp] theorem State.setSp_M (n : Fin 17) : (s.setSp n).M = s.M := rfl
@[simp] theorem State.setSp_params (n : Fin 17) : (s.setSp n).params = s.params := rfl
@[simp] theorem State.setSp_draws (n : Fin 17) : (s.setSp n).draws = s.draws := rfl
@[simp] theorem State.setSp_reports (n : Fin 17) : (s.setSp n).reports = s.reports := rfl

/-! ### `State.setDT` -/

@[simp] theorem State.setDT_V (b : Byte) : (s.setDT b).V = s.V := rfl
@[simp] theorem State.setDT_I (b : Byte) : (s.setDT b).I = s.I := rfl
@[simp] theorem State.setDT_pc (b : Byte) : (s.setDT b).pc = s.pc := rfl
@[simp] theorem State.setDT_sp (b : Byte) : (s.setDT b).sp = s.sp := rfl
@[simp] theorem State.setDT_S (b : Byte) : (s.setDT b).S = s.S := rfl
@[simp] theorem State.setDT_DT (b : Byte) : (s.setDT b).DT = b := rfl
@[simp] theorem State.setDT_ST (b : Byte) : (s.setDT b).ST = s.ST := rfl
@[simp] theorem State.setDT_K (b : Byte) : (s.setDT b).K = s.K := rfl
@[simp] theorem State.setDT_FB (b : Byte) : (s.setDT b).FB = s.FB := rfl
@[simp] theorem State.setDT_M (b : Byte) : (s.setDT b).M = s.M := rfl
@[simp] theorem State.setDT_params (b : Byte) : (s.setDT b).params = s.params := rfl
@[simp] theorem State.setDT_draws (b : Byte) : (s.setDT b).draws = s.draws := rfl
@[simp] theorem State.setDT_reports (b : Byte) : (s.setDT b).reports = s.reports := rfl

/-! ### `State.setST` -/

@[simp] theorem State.setST_V (b : Byte) : (s.setST b).V = s.V := rfl
@[simp] theorem State.setST_I (b : Byte) : (s.setST b).I = s.I := rfl
@[simp] theorem State.setST_pc (b : Byte) : (s.setST b).pc = s.pc := rfl
@[simp] theorem State.setST_sp (b : Byte) : (s.setST b).sp = s.sp := rfl
@[simp] theorem State.setST_S (b : Byte) : (s.setST b).S = s.S := rfl
@[simp] theorem State.setST_DT (b : Byte) : (s.setST b).DT = s.DT := rfl
@[simp] theorem State.setST_ST (b : Byte) : (s.setST b).ST = b := rfl
@[simp] theorem State.setST_K (b : Byte) : (s.setST b).K = s.K := rfl
@[simp] theorem State.setST_FB (b : Byte) : (s.setST b).FB = s.FB := rfl
@[simp] theorem State.setST_M (b : Byte) : (s.setST b).M = s.M := rfl
@[simp] theorem State.setST_params (b : Byte) : (s.setST b).params = s.params := rfl
@[simp] theorem State.setST_draws (b : Byte) : (s.setST b).draws = s.draws := rfl
@[simp] theorem State.setST_reports (b : Byte) : (s.setST b).reports = s.reports := rfl

/-! ### `State.setK` -/

@[simp] theorem State.setK_V (k : Vector Bool 16) : (s.setK k).V = s.V := rfl
@[simp] theorem State.setK_I (k : Vector Bool 16) : (s.setK k).I = s.I := rfl
@[simp] theorem State.setK_pc (k : Vector Bool 16) : (s.setK k).pc = s.pc := rfl
@[simp] theorem State.setK_sp (k : Vector Bool 16) : (s.setK k).sp = s.sp := rfl
@[simp] theorem State.setK_S (k : Vector Bool 16) : (s.setK k).S = s.S := rfl
@[simp] theorem State.setK_DT (k : Vector Bool 16) : (s.setK k).DT = s.DT := rfl
@[simp] theorem State.setK_ST (k : Vector Bool 16) : (s.setK k).ST = s.ST := rfl
@[simp] theorem State.setK_K (k : Vector Bool 16) : (s.setK k).K = k := rfl
@[simp] theorem State.setK_FB (k : Vector Bool 16) : (s.setK k).FB = s.FB := rfl
@[simp] theorem State.setK_M (k : Vector Bool 16) : (s.setK k).M = s.M := rfl
@[simp] theorem State.setK_params (k : Vector Bool 16) : (s.setK k).params = s.params := rfl
@[simp] theorem State.setK_draws (k : Vector Bool 16) : (s.setK k).draws = s.draws := rfl
@[simp] theorem State.setK_reports (k : Vector Bool 16) : (s.setK k).reports = s.reports := rfl

/-! ### `State.setFB` -/

@[simp] theorem State.setFB_V (fb : Framebuffer) : (s.setFB fb).V = s.V := rfl
@[simp] theorem State.setFB_I (fb : Framebuffer) : (s.setFB fb).I = s.I := rfl
@[simp] theorem State.setFB_pc (fb : Framebuffer) : (s.setFB fb).pc = s.pc := rfl
@[simp] theorem State.setFB_sp (fb : Framebuffer) : (s.setFB fb).sp = s.sp := rfl
@[simp] theorem State.setFB_S (fb : Framebuffer) : (s.setFB fb).S = s.S := rfl
@[simp] theorem State.setFB_DT (fb : Framebuffer) : (s.setFB fb).DT = s.DT := rfl
@[simp] theorem State.setFB_ST (fb : Framebuffer) : (s.setFB fb).ST = s.ST := rfl
@[simp] theorem State.setFB_K (fb : Framebuffer) : (s.setFB fb).K = s.K := rfl
@[simp] theorem State.setFB_FB (fb : Framebuffer) : (s.setFB fb).FB = fb := rfl
@[simp] theorem State.setFB_M (fb : Framebuffer) : (s.setFB fb).M = s.M := rfl
@[simp] theorem State.setFB_params (fb : Framebuffer) : (s.setFB fb).params = s.params := rfl
@[simp] theorem State.setFB_draws (fb : Framebuffer) : (s.setFB fb).draws = s.draws := rfl
@[simp] theorem State.setFB_reports (fb : Framebuffer) : (s.setFB fb).reports = s.reports := rfl

/-! ### `State.setM` -/

@[simp] theorem State.setM_V (m : Memory) : (s.setM m).V = s.V := rfl
@[simp] theorem State.setM_I (m : Memory) : (s.setM m).I = s.I := rfl
@[simp] theorem State.setM_pc (m : Memory) : (s.setM m).pc = s.pc := rfl
@[simp] theorem State.setM_sp (m : Memory) : (s.setM m).sp = s.sp := rfl
@[simp] theorem State.setM_S (m : Memory) : (s.setM m).S = s.S := rfl
@[simp] theorem State.setM_DT (m : Memory) : (s.setM m).DT = s.DT := rfl
@[simp] theorem State.setM_ST (m : Memory) : (s.setM m).ST = s.ST := rfl
@[simp] theorem State.setM_K (m : Memory) : (s.setM m).K = s.K := rfl
@[simp] theorem State.setM_FB (m : Memory) : (s.setM m).FB = s.FB := rfl
@[simp] theorem State.setM_M (m : Memory) : (s.setM m).M = m := rfl
@[simp] theorem State.setM_params (m : Memory) : (s.setM m).params = s.params := rfl
@[simp] theorem State.setM_draws (m : Memory) : (s.setM m).draws = s.draws := rfl
@[simp] theorem State.setM_reports (m : Memory) : (s.setM m).reports = s.reports := rfl

/-! ### `State.countDraw` -/

@[simp] theorem State.countDraw_V : (s.countDraw).V = s.V := rfl
@[simp] theorem State.countDraw_I : (s.countDraw).I = s.I := rfl
@[simp] theorem State.countDraw_pc : (s.countDraw).pc = s.pc := rfl
@[simp] theorem State.countDraw_sp : (s.countDraw).sp = s.sp := rfl
@[simp] theorem State.countDraw_S : (s.countDraw).S = s.S := rfl
@[simp] theorem State.countDraw_DT : (s.countDraw).DT = s.DT := rfl
@[simp] theorem State.countDraw_ST : (s.countDraw).ST = s.ST := rfl
@[simp] theorem State.countDraw_K : (s.countDraw).K = s.K := rfl
@[simp] theorem State.countDraw_FB : (s.countDraw).FB = s.FB := rfl
@[simp] theorem State.countDraw_M : (s.countDraw).M = s.M := rfl
@[simp] theorem State.countDraw_params : (s.countDraw).params = s.params := rfl
@[simp] theorem State.countDraw_draws : (s.countDraw).draws = s.draws + 1 := rfl
@[simp] theorem State.countDraw_reports : (s.countDraw).reports = s.reports := rfl

/-! ### `State.record` -/

@[simp] theorem State.record_V (r : Report) : (s.record r).V = s.V := rfl
@[simp] theorem State.record_I (r : Report) : (s.record r).I = s.I := rfl
@[simp] theorem State.record_pc (r : Report) : (s.record r).pc = s.pc := rfl
@[simp] theorem State.record_sp (r : Report) : (s.record r).sp = s.sp := rfl
@[simp] theorem State.record_S (r : Report) : (s.record r).S = s.S := rfl
@[simp] theorem State.record_DT (r : Report) : (s.record r).DT = s.DT := rfl
@[simp] theorem State.record_ST (r : Report) : (s.record r).ST = s.ST := rfl
@[simp] theorem State.record_K (r : Report) : (s.record r).K = s.K := rfl
@[simp] theorem State.record_FB (r : Report) : (s.record r).FB = s.FB := rfl
@[simp] theorem State.record_M (r : Report) : (s.record r).M = s.M := rfl
@[simp] theorem State.record_params (r : Report) : (s.record r).params = s.params := rfl
@[simp] theorem State.record_draws (r : Report) : (s.record r).draws = s.draws := rfl
@[simp] theorem State.record_reports (r : Report) : (s.record r).reports = r :: s.reports := rfl

/-! ### Reading a register after an update -/

@[simp] theorem State.setV_reg (x j : Reg) (b : Byte) : (s.setV x b).reg j = if j = x then b else s.reg j := by
  simp only [State.reg, State.setV_V, Fin.getElem_fin, Vector.getElem_set, Fin.ext_iff, eq_comm]

@[simp] theorem State.setRegs_reg (v : Vector Byte 16) (j : Reg) : (s.setRegs v).reg j = v[j] := rfl
@[simp] theorem State.setI_reg (a : Word) (j : Reg) : (s.setI a).reg j = s.reg j := rfl
@[simp] theorem State.setPc_reg (a : Word) (j : Reg) : (s.setPc a).reg j = s.reg j := rfl
@[simp] theorem State.push_reg (a : Word) (h : s.sp.val < 16) (j : Reg) : (s.push a h).reg j = s.reg j := rfl
@[simp] theorem State.setSp_reg (n : Fin 17) (j : Reg) : (s.setSp n).reg j = s.reg j := rfl
@[simp] theorem State.setDT_reg (b : Byte) (j : Reg) : (s.setDT b).reg j = s.reg j := rfl
@[simp] theorem State.setST_reg (b : Byte) (j : Reg) : (s.setST b).reg j = s.reg j := rfl
@[simp] theorem State.setK_reg (k : Vector Bool 16) (j : Reg) : (s.setK k).reg j = s.reg j := rfl
@[simp] theorem State.setFB_reg (fb : Framebuffer) (j : Reg) : (s.setFB fb).reg j = s.reg j := rfl
@[simp] theorem State.setM_reg (m : Memory) (j : Reg) : (s.setM m).reg j = s.reg j := rfl
@[simp] theorem State.countDraw_reg (j : Reg) : (s.countDraw).reg j = s.reg j := rfl
@[simp] theorem State.record_reg (r : Report) (j : Reg) : (s.record r).reg j = s.reg j := rfl

end Sys2Proof.Machine
end

