-- ==== Sys2Proof/Laws/Ops.lean ====
section
/-!
SUPPORT. One lemma for each shared operation, saying all that it can do: the cuts, the arithmetic, the moves of `pc`,
the timer tick, the bounds check, and the window and key checks.
-/

namespace Sys2Proof.Machine

/-! ### Cuts and arithmetic -/

@[simp] theorem trunc8_toNat (n : Nat) : (trunc8 n).toNat = n % 256 := by simp [trunc8]

@[simp] theorem trunc16_toNat (n : Nat) : (trunc16 n).toNat = n % 65536 := by simp [trunc16]

theorem zext16_toNat (nnn : Addr12) : (zext16 nnn).toNat = nnn.toNat := by
  have := nnn.isLt
  simp only [zext16, BitVec.toNat_setWidth]; omega

theorem add8_eq (a b : Byte) : add8 a b = a + b := by
  apply BitVec.eq_of_toNat_eq; simp [add8, BitVec.toNat_add]

theorem sub8_eq (a b : Byte) : sub8 a b = a - b := by
  apply BitVec.eq_of_toNat_eq
  have := a.isLt; have := b.isLt
  simp only [sub8, trunc8_toNat, BitVec.toNat_sub]; omega

theorem shr8_eq (a : Byte) : shr8 a = a >>> 1 := by
  apply BitVec.eq_of_toNat_eq
  have := a.isLt
  simp only [shr8, trunc8_toNat, BitVec.toNat_ushiftRight, Nat.shiftRight_eq_div_pow]; omega

theorem shl8_eq (a : Byte) : shl8 a = a <<< 1 := by
  apply BitVec.eq_of_toNat_eq
  simp [shl8, BitVec.toNat_shiftLeft, Nat.shiftLeft_eq]

@[simp] theorem bool01_toNat (c : Bool) : (bool01 c).toNat = if c then 1 else 0 := by cases c <;> rfl

/-! ### Moves of `pc` -/

theorem pc0_eq (s : State) : s.pc0 = s.pc - 2 := by
  apply BitVec.eq_of_toNat_eq
  have := s.pc.isLt
  have h2 : (2 : Word).toNat = 2 := rfl
  simp only [State.pc0, trunc16_toNat, BitVec.toNat_sub, h2]; omega

theorem advance_eq (s : State) : advance s = s.setPc (s.pc + 2) := by
  have h : trunc16 (s.pc.toNat + 2) = s.pc + 2 := BitVec.eq_of_toNat_eq (trunc16_toNat _)
  rw [advance, h]

theorem rewind_eq (s : State) : rewind s = s.setPc (s.pc - 2) := by rw [rewind, pc0_eq]

theorem skipIf_eq (c : Bool) (s : State) : skipIf c s = s.setPc (if c then s.pc + 2 else s.pc) := by
  cases c
  · rfl
  · simp [skipIf, advance_eq]

/-- `pc0` after the Advance step is where the instruction stood. -/
theorem pc0_advance (s : State) : (advance s).pc0 = s.pc := by
  rw [pc0_eq, advance_eq, State.setPc_pc]
  exact BitVec.add_sub_cancel s.pc 2

/-! ### The timer tick -/

theorem tick_toNat (t : Byte) : (tick t).toNat = t.toNat - 1 := by
  have := t.isLt
  unfold tick; split
  · simp only [trunc8_toNat]; omega
  · omega

theorem tick_eq (t : Byte) : tick t = if t = 0 then 0 else t - 1 := by
  apply BitVec.eq_of_toNat_eq
  rw [tick_toNat]
  have := t.isLt
  split
  · rename_i h; subst h; rfl
  · rename_i h
    have : t.toNat ≠ 0 := fun h0 => h (BitVec.eq_of_toNat_eq h0)
    have h1 : (1 : Byte).toNat = 1 := rfl
    simp only [BitVec.toNat_sub, h1]; omega

theorem timerTick_eq (s : State) : timerTick s = { s with DT := tick s.DT, ST := tick s.ST } := rfl

/-! ### The checks -/

/-- The window is inside the memory, or the first address outside it is the higher of its start and 0x1000. -/
theorem firstOutOfRange_eq_none {a len : Nat} : firstOutOfRange a len = none ↔ len = 0 ∨ a + len ≤ 4096 := by
  unfold firstOutOfRange
  have : Config.memSize = 4096 := rfl
  split <;> simp <;> omega

theorem firstOutOfRange_eq_some {a len b : Nat} :
    firstOutOfRange a len = some b ↔ 0 < len ∧ 4096 < a + len ∧ b = max a 4096 := by
  unfold firstOutOfRange
  have : Config.memSize = 4096 := rfl
  split <;> simp <;> omega

/-- A window inside the memory lets the instruction run. -/
theorem withWindow_of_le (i : Instr) {len : Nat} {s : State} (k : Result) (h : len = 0 ∨ s.I.toNat + len ≤ 4096) :
    withWindow i len s k = k := by
  unfold withWindow; rw [firstOutOfRange_eq_none.mpr h]

/-- A window that leaves the memory is a `MemoryBoundsError` with the first address outside. -/
theorem withWindow_of_gt (i : Instr) {len : Nat} {s : State} (k : Result) (h0 : 0 < len)
    (h : 4096 < s.I.toNat + len) :
    withWindow i len s k = .fault (.memoryBounds (max s.I.toNat 4096) s.pc0 (some (encode i))) := by
  unfold withWindow; rw [firstOutOfRange_eq_some.mpr ⟨h0, h, rfl⟩]; rfl

/-- The window check either raises its one error or lets the instruction run. -/
theorem withWindow_cases (i : Instr) (len : Nat) (s : State) (k : Result) :
    (0 < len ∧ 4096 < s.I.toNat + len ∧
      withWindow i len s k = .fault (.memoryBounds (max s.I.toNat 4096) s.pc0 (some (encode i)))) ∨
    ((len = 0 ∨ s.I.toNat + len ≤ 4096) ∧ withWindow i len s k = k) := by
  by_cases h : len = 0 ∨ s.I.toNat + len ≤ 4096
  · exact .inr ⟨h, withWindow_of_le i k h⟩
  · exact .inl ⟨by omega, by omega, withWindow_of_gt i k (by omega) (by omega)⟩

/-- The key check either raises its one error or runs with the key named. -/
theorem withKey_cases (i : Instr) (x : Reg) (s : State) (k : Fin 16 → Result) :
    (15 < (s.reg x).toNat ∧ withKey i x s k = .fault (.memoryBounds (s.reg x).toNat s.pc0 (some (encode i)))) ∨
    (∃ h : (s.reg x).toNat < 16, withKey i x s k = k ⟨(s.reg x).toNat, h⟩) := by
  unfold withKey keyIndex
  split
  · rename_i key hk
    split at hk
    · rename_i h; cases hk; exact .inr ⟨h, rfl⟩
    · cases hk
  · rename_i hk
    split at hk
    · cases hk
    · exact .inl ⟨by omega, rfl⟩

/-- The fetch gives the big-endian word at `pc`, or the first address above 0xFFF. -/
theorem fetch_cases (s : State) :
    (s.pc.toNat ≤ 0xFFE ∧ fetch s = .word (wordOfBytes (s.M.read s.pc.toNat) (s.M.read (s.pc.toNat + 1)))) ∨
    (0xFFF ≤ s.pc.toNat ∧ fetch s = .outOfRange (max s.pc.toNat 4096)) := by
  unfold fetch
  by_cases h : s.pc.toNat + 2 ≤ 4096
  · exact .inl ⟨by omega, by rw [firstOutOfRange_eq_none.mpr (.inr h)]⟩
  · exact .inr ⟨by omega, by rw [firstOutOfRange_eq_some.mpr ⟨by omega, by omega, rfl⟩]⟩

/-- The fetch reads `pc` and memory alone. -/
theorem fetch_congr {s t : State} (hpc : t.pc = s.pc) (hM : t.M = s.M) : fetch t = fetch s := by
  unfold fetch; rw [hpc, hM]

/-! ### Operand forms -/

theorem bcdDigits_length (v : Byte) : (bcdDigits v).length = 3 := rfl

theorem regBytes_length (V : Vector Byte 16) (x : Reg) : (regBytes V x).length = x.val + 1 := by
  simp [regBytes]

theorem regBytes_getD (s : State) (x j : Reg) (h : j.val ≤ x.val) : (regBytes s.V x).getD j.val 0 = s.reg j := by
  have hj : j.val < x.val + 1 := by omega
  simp [regBytes, List.getD, hj, State.reg]

@[simp] theorem loadedRegs_get (V : Vector Byte 16) (m : Memory) (a : Nat) (x j : Reg) :
    (loadedRegs V m a x)[j] = if j.val ≤ x.val then m.read (a + j.val) else V[j] := by
  simp [loadedRegs]

/-- The operand of a shift is in `V[x]` before it is shifted: `V[x]` itself, or `V[y]` with `SHIFT_SOURCE = vy`. -/
theorem shiftOperand_reg (x y j : Reg) (s : State) :
    (shiftOperand x y s).reg j =
      if j = x then (if s.params.shiftSource = .vy then s.reg y else s.reg x) else s.reg j := by
  unfold shiftOperand
  cases s.params.shiftSource
  · by_cases hj : j = x <;> simp [hj]
  · simp

/-- Fetching the operand of a shift writes no element but `V`. -/
theorem shiftOperand_eq (x y : Reg) (s : State) : ∃ v, shiftOperand x y s = s.setRegs v := by
  unfold shiftOperand
  cases s.params.shiftSource
  · exact ⟨s.V, rfl⟩
  · exact ⟨_, rfl⟩

theorem glyphAddress_toNat (v : Byte) : (glyphAddress v).toNat = 0x050 + 5 * v.toNat := by
  have := v.isLt
  have h : Config.fontBase = 0x050 := rfl
  simp only [glyphAddress, trunc16_toNat, h]; omega

/-- The lowest pressed key is pressed, and no lower one is; there is none exactly when no key is down. -/
theorem lowestKey_eq_some {K : Vector Bool 16} {k : Fin 16} (h : lowestKey K = some k) :
    K[k] = true ∧ ∀ j : Fin 16, j < k → K[j] = false := by
  unfold lowestKey at h
  rw [List.find?_eq_some_iff_getElem] at h
  obtain ⟨hk, i, hi, hget, hlt⟩ := h
  simp only [List.getElem_finRange] at hget
  refine ⟨hk, fun j hj => ?_⟩
  have hji : j.val < i := by have := congrArg Fin.val hget; simp at this; omega
  have := hlt j.val hji
  simpa using this

theorem lowestKey_eq_none {K : Vector Bool 16} : lowestKey K = none ↔ ∀ k : Fin 16, K[k] = false := by
  simp [lowestKey, List.find?_eq_none]

end Sys2Proof.Machine
end

