-- ==== Sys2Proof/Laws/Cycle.lean ====
section
/-!
SUPPORT. What one step can do, said once: it stops at the fetch, records an unknown word, or runs the decoded
instruction.
-/

namespace Sys2Proof.Machine

/-- What a step makes of the outcome of Execute. -/
def afterExec (r : Result) : Result :=
  match r with
  | .next t => .next (timerTick t)
  | .fault e => .fault e
  | .refused x => .refused x

theorem step_of_outOfRange {s : State} (h : 0xFFF ≤ s.pc.toNat) :
    step s = .fault (.memoryBounds (max s.pc.toNat 4096) s.pc none) := by
  rcases fetch_cases s with ⟨h', -⟩ | ⟨-, hf⟩
  · omega
  · simp [step, cycle, hf, outcomeOf]

theorem step_of_unknown {s : State} {w : Word} (hf : fetch s = .word w)
    (hd : decodeWord s.params.ignoreLowNibble w = none) :
    step s = .next ((timerTick (advance s)).record { pc0 := s.pc, opcode := w }) := by
  simp [step, cycle, hf, hd, outcomeOf]

theorem step_of_runs {s : State} {i : Instr} (h : s.runs i) : step s = afterExec (exec i (advance s)) := by
  obtain ⟨w, hf, hd⟩ := h
  simp only [step, cycle, hf, hd, finish, outcomeOf, afterExec]
  cases exec i (advance s) <;> rfl

/-- Every step is one of the three. -/
theorem step_cases (s : State) :
    (0xFFF ≤ s.pc.toNat ∧ step s = .fault (.memoryBounds (max s.pc.toNat 4096) s.pc none)) ∨
    (∃ w, fetch s = .word w ∧ decodeWord s.params.ignoreLowNibble w = none ∧
      step s = .next ((timerTick (advance s)).record { pc0 := s.pc, opcode := w })) ∨
    (∃ i, s.runs i ∧ step s = afterExec (exec i (advance s))) := by
  rcases fetch_cases s with ⟨-, hf⟩ | ⟨h, -⟩
  · cases hd : decodeWord s.params.ignoreLowNibble
      (wordOfBytes (s.M.read s.pc.toNat) (s.M.read (s.pc.toNat + 1))) with
    | none => exact .inr (.inl ⟨_, hf, hd, step_of_unknown hf hd⟩)
    | some i => exact .inr (.inr ⟨i, ⟨_, hf, hd⟩, step_of_runs ⟨_, hf, hd⟩⟩)
  · exact .inl ⟨h, step_of_outOfRange h⟩

/-- A step that answers a next state recorded an unknown word or completed an instruction. -/
theorem step_next_cases {s t : State} (h : step s = .next t) :
    (∃ w, fetch s = .word w ∧ decodeWord s.params.ignoreLowNibble w = none ∧
      t = (timerTick (advance s)).record { pc0 := s.pc, opcode := w }) ∨
    (∃ i u, s.runs i ∧ exec i (advance s) = .next u ∧ t = timerTick u) := by
  rcases step_cases s with ⟨-, hs⟩ | ⟨w, hf, hd, hs⟩ | ⟨i, hr, hs⟩
  · rw [hs] at h; cases h
  · rw [hs] at h; cases h; exact .inl ⟨w, hf, hd, rfl⟩
  · rw [hs] at h
    cases he : exec i (advance s) with
    | next u => rw [he] at h; cases h; exact .inr ⟨i, u, hr, he, rfl⟩
    | fault e => rw [he] at h; cases h
    | refused r => rw [he] at h; cases h

/-- A state runs at most one instruction. -/
theorem runs_unique {s : State} {i j : Instr} (hi : s.runs i) (hj : s.runs j) : i = j := by
  obtain ⟨w, hf, hd⟩ := hi
  obtain ⟨w', hf', hd'⟩ := hj
  rw [hf] at hf'; cases hf'
  rw [hd] at hd'; cases hd'; rfl

end Sys2Proof.Machine
end

