-- ==== Sys2Proof/Laws/Decode.lean ====
section
/-!
SUPPORT. The fields of R71 as arithmetic on the word, and the fields of a packed word, so that no proof opens a bit
vector again.
-/

namespace Sys2Proof

theorem fieldA_toNat (w : Word) : (fieldA w).toNat = w.toNat / 4096 := by
  have := w.isLt
  simp only [fieldA, BitVec.extractLsb'_toNat, Nat.shiftRight_eq_div_pow]; omega

theorem fieldX_val (w : Word) : (fieldX w).val = w.toNat / 256 % 16 := by
  show (w.extractLsb' 8 4).toNat = _
  simp only [BitVec.extractLsb'_toNat, Nat.shiftRight_eq_div_pow, Nat.reducePow]

theorem fieldY_val (w : Word) : (fieldY w).val = w.toNat / 16 % 16 := by
  show (w.extractLsb' 4 4).toNat = _
  simp only [BitVec.extractLsb'_toNat, Nat.shiftRight_eq_div_pow, Nat.reducePow]

theorem fieldN_val (w : Word) : (fieldN w).val = w.toNat % 16 := by
  show (w.extractLsb' 0 4).toNat = _
  simp only [BitVec.extractLsb'_toNat, Nat.shiftRight_eq_div_pow, Nat.pow_zero, Nat.div_one, Nat.reducePow]

theorem fieldKK_toNat (w : Word) : (fieldKK w).toNat = w.toNat % 256 := by
  simp only [fieldKK, BitVec.extractLsb'_toNat, Nat.shiftRight_eq_div_pow, Nat.pow_zero, Nat.div_one, Nat.reducePow]

theorem fieldNNN_toNat (w : Word) : (fieldNNN w).toNat = w.toNat % 4096 := by
  simp only [fieldNNN, BitVec.extractLsb'_toNat, Nat.shiftRight_eq_div_pow, Nat.pow_zero, Nat.div_one, Nat.reducePow]

/-- Concatenation as arithmetic. -/
theorem append_toNat {m n : Nat} (a : BitVec m) (b : BitVec n) : (a ++ b).toNat = a.toNat * 2 ^ n + b.toNat := by
  rw [BitVec.toNat_append, ← Nat.shiftLeft_add_eq_or_of_lt b.isLt, Nat.shiftLeft_eq]

theorem wordOfBytes_toNat (hi lo : Byte) : (wordOfBytes hi lo).toNat = hi.toNat * 256 + lo.toNat := append_toNat hi lo

theorem packNNN_toNat (a : BitVec 4) (nnn : Addr12) : (packNNN a nnn).toNat = a.toNat * 4096 + nnn.toNat :=
  append_toNat a nnn

theorem packXKK_toNat (a : BitVec 4) (x : Reg) (kk : Byte) :
    (packXKK a x kk).toNat = a.toNat * 4096 + x.val * 256 + kk.toNat := by
  have h : (packXKK a x kk).toNat = (a.toNat * 2 ^ 4 + x.val) * 2 ^ 8 + kk.toNat :=
    (append_toNat (a ++ nibble x) kk).trans (by rw [append_toNat]; rfl)
  rw [h]; ring

theorem packXYN_toNat (a : BitVec 4) (x y : Reg) (n : Fin 16) :
    (packXYN a x y n).toNat = a.toNat * 4096 + x.val * 256 + y.val * 16 + n.val := by
  have h : (packXYN a x y n).toNat = ((a.toNat * 2 ^ 4 + x.val) * 2 ^ 4 + y.val) * 2 ^ 4 + n.val :=
    (append_toNat (a ++ nibble x ++ nibble y) (nibble n)).trans (by rw [append_toNat, append_toNat]; rfl)
  rw [h]; ring

/-! ### Fields of a packed word -/

theorem fieldA_packNNN (a : BitVec 4) (nnn : Addr12) : (fieldA (packNNN a nnn)).toNat = a.toNat := by
  have := nnn.isLt
  rw [fieldA_toNat, packNNN_toNat]; omega

theorem fieldNNN_packNNN (a : BitVec 4) (nnn : Addr12) : fieldNNN (packNNN a nnn) = nnn := by
  have := nnn.isLt
  apply BitVec.eq_of_toNat_eq
  rw [fieldNNN_toNat, packNNN_toNat]; omega

theorem fieldA_packXKK (a : BitVec 4) (x : Reg) (kk : Byte) : (fieldA (packXKK a x kk)).toNat = a.toNat := by
  have := kk.isLt; have := x.isLt
  rw [fieldA_toNat, packXKK_toNat]; omega

theorem fieldX_packXKK (a : BitVec 4) (x : Reg) (kk : Byte) : fieldX (packXKK a x kk) = x := by
  have := kk.isLt; have := x.isLt
  apply Fin.ext
  rw [fieldX_val, packXKK_toNat]; omega

theorem fieldKK_packXKK (a : BitVec 4) (x : Reg) (kk : Byte) : fieldKK (packXKK a x kk) = kk := by
  have := kk.isLt; have := x.isLt
  apply BitVec.eq_of_toNat_eq
  rw [fieldKK_toNat, packXKK_toNat]; omega

theorem fieldA_packXYN (a : BitVec 4) (x y : Reg) (n : Fin 16) : (fieldA (packXYN a x y n)).toNat = a.toNat := by
  have := x.isLt; have := y.isLt; have := n.isLt
  rw [fieldA_toNat, packXYN_toNat]; omega

theorem fieldX_packXYN (a : BitVec 4) (x y : Reg) (n : Fin 16) : fieldX (packXYN a x y n) = x := by
  have := x.isLt; have := y.isLt; have := n.isLt
  apply Fin.ext
  rw [fieldX_val, packXYN_toNat]; omega

theorem fieldY_packXYN (a : BitVec 4) (x y : Reg) (n : Fin 16) : fieldY (packXYN a x y n) = y := by
  have := x.isLt; have := y.isLt; have := n.isLt
  apply Fin.ext
  rw [fieldY_val, packXYN_toNat]; omega

theorem fieldN_packXYN (a : BitVec 4) (x y : Reg) (n : Fin 16) : fieldN (packXYN a x y n) = n := by
  have := x.isLt; have := y.isLt; have := n.isLt
  apply Fin.ext
  rw [fieldN_val, packXYN_toNat]; omega

end Sys2Proof
end

