-- ==== Sys2Proof/Laws/Draw.lean ====
section
/-!
SUPPORT. The laws of the framebuffer: a pixel after a toggle, where a sprite bit lands, and what a scan of distinct
pixels does.
-/

namespace Sys2Proof.Machine

/-- A pixel after a toggle. -/
theorem Framebuffer.pixel_toggle (fb : Framebuffer) (y y' : Fin 32) (x x' : Fin 64) :
    (fb.toggle y x).pixel y' x' = if y = y' ∧ x = x' then !fb.pixel y x else fb.pixel y' x' := by
  simp only [Framebuffer.toggle, Framebuffer.pixel, Fin.getElem_fin, Vector.getElem_set, Fin.ext_iff]
  by_cases hy : y.val = y'.val
  · by_cases hx : x.val = x'.val <;> simp [hy, hx]
  · simp [hy]

@[simp] theorem Framebuffer.pixel_clear (y : Fin 32) (x : Fin 64) : Framebuffer.clear.pixel y x = false := by
  simp [Framebuffer.clear, Framebuffer.pixel]

/-- Two framebuffers with the same pixels are the same. -/
theorem Framebuffer.ext_pixel {a b : Framebuffer} (h : ∀ y x, a.pixel y x = b.pixel y x) : a = b := by
  apply Vector.ext; intro y hy
  apply Vector.ext; intro x hx
  exact h ⟨y, hy⟩ ⟨x, hx⟩

/-- Where a sprite bit lands. -/
theorem pixelAt_eq_some {edge : DrawEdge} {x0 y0 r c : Nat} {y : Fin 32} {x : Fin 64} :
    pixelAt edge x0 y0 r c = some (y, x) ↔ Lands edge x0 y0 r c y x := by
  have hy := y.isLt; have hx := x.isLt
  cases edge with
  | clip =>
    simp only [pixelAt, Lands]
    split
    · simp [Fin.ext_iff]
    · simp; omega
  | wrap => simp [pixelAt, Lands, Fin.ext_iff]

/-- The bits of a sprite that are set, in scan order, as the places they fall on. -/
def spriteTargets (edge : DrawEdge) (x0 y0 n : Nat) (m : Memory) (a : Nat) : List (Option (Fin 32 × Fin 64)) :=
  (List.range n).flatMap fun r =>
    ((List.range 8).filter fun c => (m.read (a + r)).getLsbD (7 - c)).map fun c => pixelAt edge x0 y0 r c

theorem Canvas.foldl_filter {α : Type} (p : α → Bool) (f : α → Option (Fin 32 × Fin 64)) :
    ∀ (l : List α) (k : Canvas),
      l.foldl (fun k c => if p c then k.plot (f c) else k) k = ((l.filter p).map f).foldl Canvas.plot k
  | [], _ => rfl
  | c :: l, k => by
    by_cases h : p c
    · simp [h, Canvas.foldl_filter p f l]
    · simp [h, Canvas.foldl_filter p f l]

theorem Canvas.foldl_flatMap {α : Type} (f : α → List (Option (Fin 32 × Fin 64))) :
    ∀ (l : List α) (k : Canvas),
      l.foldl (fun k r => (f r).foldl Canvas.plot k) k = (l.flatMap f).foldl Canvas.plot k
  | [], _ => rfl
  | r :: l, k => by simp [Canvas.foldl_flatMap f l, List.foldl_append]

/-- A scan of a sprite plots its set bits one after another. -/
theorem Canvas.plotSprite_eq (k : Canvas) (edge : DrawEdge) (x0 y0 n : Nat) (m : Memory) (a : Nat) :
    k.plotSprite edge x0 y0 n m a = (spriteTargets edge x0 y0 n m a).foldl Canvas.plot k := by
  unfold Canvas.plotSprite spriteTargets Canvas.plotRow
  simp only [Canvas.foldl_filter]
  exact Canvas.foldl_flatMap _ _ _

theorem mem_spriteTargets {edge : DrawEdge} {x0 y0 n : Nat} {m : Memory} {a : Nat} {y : Fin 32} {x : Fin 64} :
    some (y, x) ∈ spriteTargets edge x0 y0 n m a ↔ SpriteHits edge x0 y0 n m a y x := by
  simp only [spriteTargets, List.mem_flatMap, List.mem_map, List.mem_filter, List.mem_range, pixelAt_eq_some,
    SpriteHits]
  constructor
  · rintro ⟨r, hr, c, ⟨hc, hb⟩, hl⟩; exact ⟨r, c, hr, hc, hb, hl⟩
  · rintro ⟨r, c, hr, hc, hb, hl⟩; exact ⟨r, hr, c, ⟨hc, hb⟩, hl⟩

/-- What a scan of places does where no pixel comes twice: a pixel among them is toggled, any other is kept, and there
is a collision exactly where one of them was set before. -/
theorem Canvas.foldl_plot (l : List (Option (Fin 32 × Fin 64)))
    (hl : l.Pairwise fun p q => p = q → p = none) (k : Canvas) :
    (∀ y x, some (y, x) ∈ l → (l.foldl Canvas.plot k).fb.pixel y x = !k.fb.pixel y x) ∧
    (∀ y x, some (y, x) ∉ l → (l.foldl Canvas.plot k).fb.pixel y x = k.fb.pixel y x) ∧
    ((l.foldl Canvas.plot k).collided = true ↔
      k.collided = true ∨ ∃ y x, some (y, x) ∈ l ∧ k.fb.pixel y x = true) := by
  induction l generalizing k with
  | nil => simp
  | cons p l ih =>
    rw [List.pairwise_cons] at hl
    obtain ⟨ih1, ih2, ih3⟩ := ih hl.2 (k.plot p)
    rw [List.foldl_cons]
    cases p with
    | none => simpa [Canvas.plot] using ⟨ih1, ih2, ih3⟩
    | some q =>
      obtain ⟨y0, x0⟩ := q
      have hnot : some (y0, x0) ∉ l := fun hm => by simpa using hl.1 _ hm rfl
      have hout : ∀ y x, some (y, x) ∈ l → ¬ (y0 = y ∧ x0 = x) := by
        rintro y x hm ⟨rfl, rfl⟩; exact hnot hm
      have hin : ∀ y x, some (y, x) ∈ some (y0, x0) :: l ↔ (y0 = y ∧ x0 = x) ∨ some (y, x) ∈ l := by
        intro y x; simp [eq_comm]
      simp only [Canvas.plot, Framebuffer.pixel_toggle, Bool.or_eq_true] at ih1 ih2 ih3
      refine ⟨fun y x hm => ?_, fun y x hm => ?_, ?_⟩
      · rcases (hin y x).mp hm with ⟨rfl, rfl⟩ | hm
        · rw [Canvas.plot, ih2 _ _ hnot]; simp
        · rw [Canvas.plot, ih1 _ _ hm, if_neg (hout _ _ hm)]
      · rw [hin, not_or] at hm
        rw [Canvas.plot, ih2 _ _ hm.2, if_neg hm.1]
      · rw [Canvas.plot, ih3]
        constructor
        · rintro ((h | h) | ⟨y, x, hm, hp⟩)
          · exact .inl h
          · exact .inr ⟨y0, x0, List.mem_cons_self, h⟩
          · rw [if_neg (hout _ _ hm)] at hp
            exact .inr ⟨y, x, List.mem_cons_of_mem _ hm, hp⟩
        · rintro (h | ⟨y, x, hm, hp⟩)
          · exact .inl (.inl h)
          · rcases (hin y x).mp hm with ⟨rfl, rfl⟩ | hm
            · exact .inl (.inr hp)
            · exact .inr ⟨y, x, hm, by rw [if_neg (hout _ _ hm)]; exact hp⟩

/-- Two bits of one sprite that land on the same pixel are the same bit, since a sprite is at most 8 wide and 15 high
(R172: every pixel is visited at most once, under both edge modes). -/
theorem pixelAt_injective {edge : DrawEdge} {x0 y0 r c r' c' : Nat} (hr : r < 16) (hr' : r' < 16) (hc : c < 8)
    (hc' : c' < 8) (h : pixelAt edge x0 y0 r c = pixelAt edge x0 y0 r' c') :
    (r = r' ∧ c = c') ∨ pixelAt edge x0 y0 r c = none := by
  cases hp : pixelAt edge x0 y0 r c with
  | none => exact .inr rfl
  | some q =>
    have e1 := pixelAt_eq_some.mp hp
    have e2 := pixelAt_eq_some.mp (h ▸ hp)
    cases edge <;> simp only [Lands] at e1 e2 <;> left <;> omega

/-- No pixel comes twice among the places of a sprite of fewer than 16 rows. -/
theorem spriteTargets_pairwise (edge : DrawEdge) (x0 y0 : Nat) {n : Nat} (hn : n < 16) (m : Memory) (a : Nat) :
    (spriteTargets edge x0 y0 n m a).Pairwise fun p q => p = q → p = none := by
  unfold spriteTargets
  rw [List.pairwise_flatMap]
  constructor
  · intro r hr
    rw [List.pairwise_map]
    refine List.Pairwise.imp_of_mem (fun hc hc' hne he => ?_) ((List.nodup_range (n := 8)).filter _)
    simp only [List.mem_filter, List.mem_range] at hc hc' hr
    rcases pixelAt_injective (by omega) (by omega) hc.1 hc'.1 he with h | h
    · exact absurd h.2 hne
    · exact h
  · refine List.Pairwise.imp_of_mem (fun hr hr' hne p hp q hq he => ?_) (List.nodup_range (n := n))
    simp only [List.mem_map, List.mem_filter, List.mem_range] at hp hq hr hr'
    obtain ⟨c, ⟨hc, -⟩, rfl⟩ := hp
    obtain ⟨c', ⟨hc', -⟩, rfl⟩ := hq
    rcases pixelAt_injective (by omega) (by omega) hc hc' he with h | h
    · exact absurd h.1 hne
    · exact h

end Sys2Proof.Machine
end

