-- ==== Sys2Proof/Laws/Exec.lean ====
section
/-!
SUPPORT. What Execute can write, said once over every instruction: each element of the state with the instructions that
may change it.
-/

namespace Sys2Proof.Machine

/-- The elements of the state that `i` does not name keep their values. -/
structure Writes (i : Instr) (s t : State) : Prop where
  K : t.K = s.K
  params : t.params = s.params
  reports : t.reports = s.reports
  DT : (∀ x, i ≠ .ldDtVx x) → t.DT = s.DT
  ST : (∀ x, i ≠ .ldStVx x) → t.ST = s.ST
  FB : i ≠ .cls → (∀ x y n, i ≠ .drw x y n) → t.FB = s.FB
  M : (∀ x, i ≠ .ldBVx x) → (∀ x, i ≠ .ldMemIVx x) → t.M = s.M
  I : (∀ n, i ≠ .ldINnn n) → (∀ x, i ≠ .addIVx x) → (∀ x, i ≠ .ldFVx x) → t.I = s.I
  S : (∀ n, i ≠ .call n) → t.S = s.S
  sp : (∀ n, i ≠ .call n) → i ≠ .ret → t.sp = s.sp
  draws : (∀ x kk, i ≠ .rnd x kk) → t.draws = s.draws

/-- A window check that answers next let its instruction run inside the memory. -/
theorem withWindow_next {i : Instr} {len : Nat} {s t u : State} (h : withWindow i len s (.next u) = .next t) :
    (len = 0 ∨ s.I.toNat + len ≤ 4096) ∧ t = u := by
  rcases withWindow_cases i len s (.next u) with ⟨-, -, e⟩ | ⟨hl, e⟩ <;> rw [e] at h <;> cases h
  exact ⟨hl, rfl⟩

/-- A key check that answers next ran with the key that `V[x]` names. -/
theorem withKey_next {i : Instr} {x : Reg} {s t : State} {f : Fin 16 → State}
    (h : withKey i x s (fun k => .next (f k)) = .next t) : ∃ hk : (s.reg x).toNat < 16, t = f ⟨_, hk⟩ := by
  rcases withKey_cases i x s (fun k => .next (f k)) with ⟨-, e⟩ | ⟨hk, e⟩ <;> rw [e] at h <;> cases h
  exact ⟨hk, rfl⟩

/-- What any instruction can write when it completes. -/
theorem exec_writes {i : Instr} {s t : State} (h : exec i s = .next t) : Writes i s t := by
  cases i <;> simp only [exec] at h
  case ret => unfold execRet at h; split at h <;> cases h; constructor <;> simp
  case call => unfold execCall at h; split at h <;> cases h; constructor <;> simp
  case drw => obtain ⟨-, rfl⟩ := withWindow_next h; constructor <;> simp
  case ldBVx => obtain ⟨-, rfl⟩ := withWindow_next h; constructor <;> simp
  case ldMemIVx => obtain ⟨-, rfl⟩ := withWindow_next h; constructor <;> simp
  case ldVxMemI => obtain ⟨-, rfl⟩ := withWindow_next h; constructor <;> simp
  case skp => obtain ⟨_, rfl⟩ := withKey_next h; constructor <;> simp [skipIf_eq]
  case sknp => obtain ⟨_, rfl⟩ := withKey_next h; constructor <;> simp [skipIf_eq]
  case ldVxK => unfold execLdVxK at h; split at h <;> cases h <;> constructor <;> simp [rewind_eq]
  case shr x y => obtain ⟨v, hv⟩ := shiftOperand_eq x y s; cases h; constructor <;> simp [hv]
  case shl x y => obtain ⟨v, hv⟩ := shiftOperand_eq x y s; cases h; constructor <;> simp [hv]
  all_goals (cases h; constructor <;> simp [skipIf_eq])

end Sys2Proof.Machine
end

