-- ==== Sys2Proof/Laws/Frame.lean ====
section
/-!
SUPPORT. Frames: an update changes its own element alone, one lemma per update, so that the frame of an instruction is
read off the updates it makes.
-/

namespace Sys2Proof.Machine

variable {ps : List Part} {s t : State}

theorem onlyChanges_refl (ps : List Part) (s : State) : OnlyChanges ps s s := by
  intro p _; cases p <;> simp [Part.same]

theorem OnlyChanges.mono {ps qs : List Part} (h : OnlyChanges ps s t) (hpq : ∀ p ∈ ps, p ∈ qs) : OnlyChanges qs s t :=
  fun p hp => h p fun hm => hp (hpq p hm)

theorem OnlyChanges.setV (h : OnlyChanges ps s t) (hp : .V ∈ ps) (x : Reg) (b : Byte) :
    OnlyChanges ps s (t.setV x b) := by
  intro p hm
  have := h p hm
  cases p <;> first | exact absurd hp hm | exact this

theorem OnlyChanges.setRegs (h : OnlyChanges ps s t) (hp : .V ∈ ps) (v : Vector Byte 16) :
    OnlyChanges ps s (t.setRegs v) := by
  intro p hm
  have := h p hm
  cases p <;> first | exact absurd hp hm | exact this

theorem OnlyChanges.setI (h : OnlyChanges ps s t) (hp : .I ∈ ps) (a : Word) :
    OnlyChanges ps s (t.setI a) := by
  intro p hm
  have := h p hm
  cases p <;> first | exact absurd hp hm | exact this

theorem OnlyChanges.setPc (h : OnlyChanges ps s t) (hp : .pc ∈ ps) (a : Word) :
    OnlyChanges ps s (t.setPc a) := by
  intro p hm
  have := h p hm
  cases p <;> first | exact absurd hp hm | exact this

theorem OnlyChanges.setSp (h : OnlyChanges ps s t) (hp : .sp ∈ ps) (n : Fin 17) :
    OnlyChanges ps s (t.setSp n) := by
  intro p hm
  have := h p hm
  cases p <;> first | exact absurd hp hm | exact this

theorem OnlyChanges.setDT (h : OnlyChanges ps s t) (hp : .DT ∈ ps) (b : Byte) :
    OnlyChanges ps s (t.setDT b) := by
  intro p hm
  have := h p hm
  cases p <;> first | exact absurd hp hm | exact this

theorem OnlyChanges.setST (h : OnlyChanges ps s t) (hp : .ST ∈ ps) (b : Byte) :
    OnlyChanges ps s (t.setST b) := by
  intro p hm
  have := h p hm
  cases p <;> first | exact absurd hp hm | exact this

theorem OnlyChanges.setK (h : OnlyChanges ps s t) (hp : .K ∈ ps) (k : Vector Bool 16) :
    OnlyChanges ps s (t.setK k) := by
  intro p hm
  have := h p hm
  cases p <;> first | exact absurd hp hm | exact this

theorem OnlyChanges.setFB (h : OnlyChanges ps s t) (hp : .FB ∈ ps) (fb : Framebuffer) :
    OnlyChanges ps s (t.setFB fb) := by
  intro p hm
  have := h p hm
  cases p <;> first | exact absurd hp hm | exact this

theorem OnlyChanges.setM (h : OnlyChanges ps s t) (hp : .M ∈ ps) (m : Memory) :
    OnlyChanges ps s (t.setM m) := by
  intro p hm
  have := h p hm
  cases p <;> first | exact absurd hp hm | exact this

theorem OnlyChanges.countDraw (h : OnlyChanges ps s t) (hp : .draws ∈ ps) :
    OnlyChanges ps s (t.countDraw) := by
  intro p hm
  have := h p hm
  cases p <;> first | exact absurd hp hm | exact this

theorem OnlyChanges.record (h : OnlyChanges ps s t) (hp : .reports ∈ ps) (r : Report) :
    OnlyChanges ps s (t.record r) := by
  intro p hm
  have := h p hm
  cases p <;> first | exact absurd hp hm | exact this

theorem OnlyChanges.push (h : OnlyChanges ps s t) (hS : .S ∈ ps) (hsp : .sp ∈ ps) (a : Word)
    (hlt : t.sp.val < 16) : OnlyChanges ps s (t.push a hlt) := by
  intro p hm
  have := h p hm
  cases p <;> first | exact absurd hS hm | exact absurd hsp hm | exact this

/-- A register outside those that a frame names reads the same after another write to one of them. -/
theorem RegsKeptBut.setV {xs : List Reg} (h : RegsKeptBut xs s t) {x : Reg} (hx : x ∈ xs) (b : Byte) :
    RegsKeptBut xs s (t.setV x b) := by
  intro j hj
  have hne : j ≠ x := fun e => hj (e ▸ hx)
  rw [State.setV_reg, if_neg hne, h j hj]

theorem regsKeptBut_refl (xs : List Reg) (s : State) : RegsKeptBut xs s s := fun _ _ => rfl

end Sys2Proof.Machine
end

