-- ==== Sys2Proof/Laws/Memory.lean ====
section
/-!
SUPPORT. The laws of memory: a read after a write, the canonical form, and that equal memories are equal lists.
-/

namespace Sys2Proof.Machine

namespace Memory

/-! ### The canonical form -/

theorem wfFrom_mono {lo lo' : Nat} (h : lo' ≤ lo) : ∀ {m : Memory}, wfFrom lo m = true → wfFrom lo' m = true
  | [], _ => rfl
  | (a, v) :: m, hm => by
    simp only [wfFrom, Bool.and_eq_true, decide_eq_true_eq] at hm ⊢
    exact ⟨⟨by omega, hm.1.2⟩, hm.2⟩

/-- Below the first listed address a memory reads as constructed. -/
theorem read_below {lo a : Nat} (h : a < lo) : ∀ {m : Memory}, wfFrom lo m = true → read m a = constructed a
  | [], _ => rfl
  | (b, v) :: m, hm => by
    simp only [wfFrom, Bool.and_eq_true, decide_eq_true_eq] at hm
    have hne : a ≠ b := by omega
    simp only [read, if_neg hne]
    exact read_below (by omega) hm.2

theorem wfFrom_cons {lo a : Nat} {v : Byte} {m : Memory} (ha : lo ≤ a) (hs : a < 4096)
    (hm : wfFrom (a + 1) m = true) : wfFrom lo (cons a v m) = true := by
  unfold cons
  split
  · exact wfFrom_mono (by omega) hm
  · simp_all [wfFrom]

theorem wfFrom_write {a : Nat} (hs : a < 4096) (v : Byte) :
    ∀ {lo : Nat} {m : Memory}, lo ≤ a → wfFrom lo m = true → wfFrom lo (write m a v) = true
  | _, [], ha, _ => wfFrom_cons ha hs rfl
  | lo, (b, u) :: m, ha, hm => by
    have hm' := hm
    simp only [wfFrom, Bool.and_eq_true, decide_eq_true_eq] at hm
    simp only [write]
    split
    · refine wfFrom_cons ha hs ?_
      simp only [wfFrom, Bool.and_eq_true, decide_eq_true_eq]
      exact ⟨⟨by omega, hm.1.2⟩, hm.2⟩
    · split
      · rename_i h; subst h; exact wfFrom_cons ha hs hm.2
      · simp only [wfFrom, Bool.and_eq_true, decide_eq_true_eq]
        exact ⟨hm.1, wfFrom_write hs v (by omega) hm.2⟩

/-- A write keeps the canonical form. -/
theorem wf_write {m : Memory} {a : Nat} (v : Byte) (hm : m.wf = true) (hs : a < 4096) :
    (m.write a v).wf = true := wfFrom_write hs v (Nat.zero_le _) hm

/-- Writing a run of bytes inside the memory keeps the canonical form. -/
theorem wf_writeBytes : ∀ {bytes : List Byte} {m : Memory} {a : Nat}, m.wf = true →
    a + bytes.length ≤ 4096 → (m.writeBytes a bytes).wf = true
  | [], _, _, hm, _ => hm
  | v :: bytes, m, a, hm, h => by
    simp only [List.length_cons] at h
    show (writeBytes (m.write a v) (a + 1) bytes).wf = true
    exact wf_writeBytes (wf_write v hm (by omega)) (by omega)

theorem wf_nil : wf [] = true := rfl

/-! ### Reading after writing -/

theorem read_cons {lo : Nat} {m : Memory} (a : Nat) (v : Byte) (b : Nat) (ha : a < lo) (hm : wfFrom lo m = true) :
    read (cons a v m) b = if b = a then v else read m b := by
  unfold cons
  split
  · rename_i hv
    split
    · rename_i h; subst h; rw [read_below ha hm, hv]
    · rfl
  · rfl

theorem read_writeFrom (a : Nat) (v : Byte) (b : Nat) :
    ∀ {lo : Nat} {m : Memory}, wfFrom lo m = true → read (write m a v) b = if b = a then v else read m b
  | _, [], _ => read_cons (lo := a + 1) a v b (by omega) rfl
  | lo, (c, u) :: m, hm => by
    have hc := hm
    simp only [wfFrom, Bool.and_eq_true, decide_eq_true_eq] at hm
    simp only [write]
    split
    · rename_i h
      refine read_cons (lo := c) a v b h ?_
      simp only [wfFrom, Bool.and_eq_true, decide_eq_true_eq]
      exact ⟨⟨Nat.le_refl c, hm.1.2⟩, hm.2⟩
    · split
      · rename_i h; subst h
        rw [read_cons (lo := a + 1) a v b (by omega) hm.2]
        simp only [read]; split <;> rfl
      · rename_i h1 h2
        simp only [read, read_writeFrom a v b hm.2]
        by_cases hbc : b = c
        · have : b ≠ a := by omega
          simp [hbc, Ne.symm h2]
        · simp [hbc]

/-- A read after a write gives the value written at that address, and what was there at any other. -/
theorem read_write {m : Memory} (hm : m.wf = true) (a : Nat) (v : Byte) (b : Nat) :
    (m.write a v).read b = if b = a then v else m.read b := read_writeFrom a v b hm

/-- A read after a run of bytes was written. -/
theorem read_writeBytes : ∀ {bytes : List Byte} {m : Memory} {a : Nat}, m.wf = true →
    a + bytes.length ≤ 4096 → ∀ b : Nat,
    (m.writeBytes a bytes).read b = if a ≤ b ∧ b < a + bytes.length then bytes.getD (b - a) 0 else m.read b
  | [], m, a, _, _, b => by
    have : ¬ (a ≤ b ∧ b < a + ([] : List Byte).length) := by simp only [List.length_nil]; omega
    rw [if_neg this]; rfl
  | v :: bytes, m, a, hm, h, b => by
    simp only [List.length_cons] at h ⊢
    show (writeBytes (m.write a v) (a + 1) bytes).read b = _
    rw [read_writeBytes (wf_write v hm (by omega)) (by omega), read_write hm]
    by_cases hb : b = a
    · subst hb
      rw [if_neg (by omega), if_pos rfl, if_pos (by omega)]
      simp
    · by_cases hin : a + 1 ≤ b ∧ b < a + 1 + bytes.length
      · rw [if_pos hin, if_pos (by omega)]
        obtain ⟨k, rfl⟩ : ∃ k, b = a + 1 + k := ⟨b - (a + 1), by omega⟩
        have h1 : a + 1 + k - (a + 1) = k := by omega
        have h2 : a + 1 + k - a = k + 1 := by omega
        rw [h1, h2]; simp
      · rw [if_neg hin, if_neg hb, if_neg (by omega)]

/-! ### Equal memories are equal lists -/

theorem ext_from : ∀ {m m' : Memory} {lo lo' : Nat}, wfFrom lo m = true → wfFrom lo' m' = true →
    (∀ a, read m a = read m' a) → m = m'
  | [], [], _, _, _, _, _ => rfl
  | [], (b, u) :: m', _, _, _, hm', h => by
    simp only [wfFrom, Bool.and_eq_true, decide_eq_true_eq] at hm'
    have := h b; simp only [read, if_true] at this
    exact absurd this.symm hm'.1.2.2
  | (b, u) :: m, [], _, _, hm, _, h => by
    simp only [wfFrom, Bool.and_eq_true, decide_eq_true_eq] at hm
    have := h b; simp only [read, if_true] at this
    exact absurd this hm.1.2.2
  | (b, u) :: m, (c, w) :: m', _, _, hm, hm', h => by
    simp only [wfFrom, Bool.and_eq_true, decide_eq_true_eq] at hm hm'
    have hbc : b = c := by
      by_contra hne
      rcases Nat.lt_or_gt_of_ne hne with hlt | hlt
      · have := h b
        simp only [read, if_true, if_neg hne] at this
        rw [read_below (by omega) hm'.2] at this
        exact hm.1.2.2 this
      · have := h c
        simp only [read, if_true, if_neg (Ne.symm hne)] at this
        rw [read_below (by omega) hm.2] at this
        exact hm'.1.2.2 this.symm
    subst hbc
    have huw : u = w := by have := h b; simpa only [read, if_true] using this
    subst huw
    have htail : ∀ a, read m a = read m' a := by
      intro a
      by_cases ha : a = b
      · subst ha; rw [read_below (Nat.lt_succ_self _) hm.2, read_below (Nat.lt_succ_self _) hm'.2]
      · have := h a; simpa only [read, if_neg ha] using this
    rw [ext_from hm.2 hm'.2 htail]

/-- Two memories in canonical form that read the same everywhere are the same list. -/
theorem ext_of_wf {m m' : Memory} (hm : m.wf = true) (hm' : m'.wf = true) (h : ∀ a, m.read a = m'.read a) : m = m' :=
  ext_from hm hm' h

end Memory

end Sys2Proof.Machine
end

