-- ==== Sys2Proof/Laws/PerInstr.lean ====
section
/-!
SUPPORT. The families of statements made per instruction. `OperandsFit`: every operand fits its field of R71, so every
instruction is well formed ("No field value is invalid", R73).
-/

namespace Sys2Proof.Laws

/-- The instruction is well formed. -/
def OperandsFit.Statement (i : Instr) : Prop := i.wellFormed = true

theorem OperandsFit.cls : OperandsFit.Statement .cls := rfl

theorem OperandsFit.ret : OperandsFit.Statement .ret := rfl

theorem OperandsFit.jp (nnn : Addr12) : OperandsFit.Statement (.jp nnn) := by
  simp [OperandsFit.Statement, Instr.wellFormed, operandsFit, Instr.operands, nnn.isLt]

theorem OperandsFit.call (nnn : Addr12) : OperandsFit.Statement (.call nnn) := by
  simp [OperandsFit.Statement, Instr.wellFormed, operandsFit, Instr.operands, nnn.isLt]

theorem OperandsFit.seVxKk (x : Reg) (kk : Byte) : OperandsFit.Statement (.seVxKk x kk) := by
  simp [OperandsFit.Statement, Instr.wellFormed, operandsFit, Instr.operands, x.isLt, kk.isLt]

theorem OperandsFit.sneVxKk (x : Reg) (kk : Byte) : OperandsFit.Statement (.sneVxKk x kk) := by
  simp [OperandsFit.Statement, Instr.wellFormed, operandsFit, Instr.operands, x.isLt, kk.isLt]

theorem OperandsFit.seVxVy (x y : Reg) : OperandsFit.Statement (.seVxVy x y) := by
  simp [OperandsFit.Statement, Instr.wellFormed, operandsFit, Instr.operands, x.isLt, y.isLt]

theorem OperandsFit.ldVxKk (x : Reg) (kk : Byte) : OperandsFit.Statement (.ldVxKk x kk) := by
  simp [OperandsFit.Statement, Instr.wellFormed, operandsFit, Instr.operands, x.isLt, kk.isLt]

theorem OperandsFit.addVxKk (x : Reg) (kk : Byte) : OperandsFit.Statement (.addVxKk x kk) := by
  simp [OperandsFit.Statement, Instr.wellFormed, operandsFit, Instr.operands, x.isLt, kk.isLt]

theorem OperandsFit.ldVxVy (x y : Reg) : OperandsFit.Statement (.ldVxVy x y) := by
  simp [OperandsFit.Statement, Instr.wellFormed, operandsFit, Instr.operands, x.isLt, y.isLt]

theorem OperandsFit.orVxVy (x y : Reg) : OperandsFit.Statement (.orVxVy x y) := by
  simp [OperandsFit.Statement, Instr.wellFormed, operandsFit, Instr.operands, x.isLt, y.isLt]

theorem OperandsFit.andVxVy (x y : Reg) : OperandsFit.Statement (.andVxVy x y) := by
  simp [OperandsFit.Statement, Instr.wellFormed, operandsFit, Instr.operands, x.isLt, y.isLt]

theorem OperandsFit.xorVxVy (x y : Reg) : OperandsFit.Statement (.xorVxVy x y) := by
  simp [OperandsFit.Statement, Instr.wellFormed, operandsFit, Instr.operands, x.isLt, y.isLt]

theorem OperandsFit.addVxVy (x y : Reg) : OperandsFit.Statement (.addVxVy x y) := by
  simp [OperandsFit.Statement, Instr.wellFormed, operandsFit, Instr.operands, x.isLt, y.isLt]

theorem OperandsFit.sub (x y : Reg) : OperandsFit.Statement (.sub x y) := by
  simp [OperandsFit.Statement, Instr.wellFormed, operandsFit, Instr.operands, x.isLt, y.isLt]

theorem OperandsFit.shr (x y : Reg) : OperandsFit.Statement (.shr x y) := by
  simp [OperandsFit.Statement, Instr.wellFormed, operandsFit, Instr.operands, x.isLt, y.isLt]

theorem OperandsFit.subn (x y : Reg) : OperandsFit.Statement (.subn x y) := by
  simp [OperandsFit.Statement, Instr.wellFormed, operandsFit, Instr.operands, x.isLt, y.isLt]

theorem OperandsFit.shl (x y : Reg) : OperandsFit.Statement (.shl x y) := by
  simp [OperandsFit.Statement, Instr.wellFormed, operandsFit, Instr.operands, x.isLt, y.isLt]

theorem OperandsFit.sneVxVy (x y : Reg) : OperandsFit.Statement (.sneVxVy x y) := by
  simp [OperandsFit.Statement, Instr.wellFormed, operandsFit, Instr.operands, x.isLt, y.isLt]

theorem OperandsFit.ldINnn (nnn : Addr12) : OperandsFit.Statement (.ldINnn nnn) := by
  simp [OperandsFit.Statement, Instr.wellFormed, operandsFit, Instr.operands, nnn.isLt]

theorem OperandsFit.jpV0Nnn (nnn : Addr12) : OperandsFit.Statement (.jpV0Nnn nnn) := by
  simp [OperandsFit.Statement, Instr.wellFormed, operandsFit, Instr.operands, nnn.isLt]

theorem OperandsFit.rnd (x : Reg) (kk : Byte) : OperandsFit.Statement (.rnd x kk) := by
  simp [OperandsFit.Statement, Instr.wellFormed, operandsFit, Instr.operands, x.isLt, kk.isLt]

theorem OperandsFit.drw (x y : Reg) (n : Fin 16) : OperandsFit.Statement (.drw x y n) := by
  simp [OperandsFit.Statement, Instr.wellFormed, operandsFit, Instr.operands, x.isLt, y.isLt, n.isLt]

theorem OperandsFit.skp (x : Reg) : OperandsFit.Statement (.skp x) := by
  simp [OperandsFit.Statement, Instr.wellFormed, operandsFit, Instr.operands, x.isLt]

theorem OperandsFit.sknp (x : Reg) : OperandsFit.Statement (.sknp x) := by
  simp [OperandsFit.Statement, Instr.wellFormed, operandsFit, Instr.operands, x.isLt]

theorem OperandsFit.ldVxDt (x : Reg) : OperandsFit.Statement (.ldVxDt x) := by
  simp [OperandsFit.Statement, Instr.wellFormed, operandsFit, Instr.operands, x.isLt]

theorem OperandsFit.ldVxK (x : Reg) : OperandsFit.Statement (.ldVxK x) := by
  simp [OperandsFit.Statement, Instr.wellFormed, operandsFit, Instr.operands, x.isLt]

theorem OperandsFit.ldDtVx (x : Reg) : OperandsFit.Statement (.ldDtVx x) := by
  simp [OperandsFit.Statement, Instr.wellFormed, operandsFit, Instr.operands, x.isLt]

theorem OperandsFit.ldStVx (x : Reg) : OperandsFit.Statement (.ldStVx x) := by
  simp [OperandsFit.Statement, Instr.wellFormed, operandsFit, Instr.operands, x.isLt]

theorem OperandsFit.addIVx (x : Reg) : OperandsFit.Statement (.addIVx x) := by
  simp [OperandsFit.Statement, Instr.wellFormed, operandsFit, Instr.operands, x.isLt]

theorem OperandsFit.ldFVx (x : Reg) : OperandsFit.Statement (.ldFVx x) := by
  simp [OperandsFit.Statement, Instr.wellFormed, operandsFit, Instr.operands, x.isLt]

theorem OperandsFit.ldBVx (x : Reg) : OperandsFit.Statement (.ldBVx x) := by
  simp [OperandsFit.Statement, Instr.wellFormed, operandsFit, Instr.operands, x.isLt]

theorem OperandsFit.ldMemIVx (x : Reg) : OperandsFit.Statement (.ldMemIVx x) := by
  simp [OperandsFit.Statement, Instr.wellFormed, operandsFit, Instr.operands, x.isLt]

theorem OperandsFit.ldVxMemI (x : Reg) : OperandsFit.Statement (.ldVxMemI x) := by
  simp [OperandsFit.Statement, Instr.wellFormed, operandsFit, Instr.operands, x.isLt]

end Sys2Proof.Laws
end

