-- ==== Sys2Proof/Tests/Slice0.lean ====
section
/-!
SUPPORT. Tests. Expected values are the spec's: the encodings of 30_encoding.md R85 written out by hand, and the test
vectors of 95_test_vectors.md, whose names the step tests carry. The last part shows, for each statement with hypotheses, a
state and operands that meet them.
-/

namespace Sys2Proof.Tests

open Sys2Proof.Machine

/-! ### Helpers -/

/-- The pre-state of 95_test_vectors.md section 0: construction state, `pc = pc0`, the word at `pc0`. -/
def loadedAt (pc0 : Word) (w : Nat) : State := (State.reset.setPc pc0).withFetchWord 16 w

/-- The same at 0x300, with some registers set. -/
def pre (w : Nat) (regs : List (Reg × Byte)) : State := regs.foldl (fun s p => s.setV p.1 p.2) (loadedAt 0x300 w)

/-- Bytes placed in memory from `a` up. -/
def withBytes (a : Nat) (bytes : List Byte) (s : State) : State := s.setM (s.M.writeBytes a bytes)

/-- Keys down. -/
def withKeys (ks : List (Fin 16)) (s : State) : State := setKeys (Vector.ofFn fun k => ks.contains k) s

/-- Pixels (x, y) toggled. -/
def withPixels (ps : List (Fin 64 × Fin 32)) (s : State) : State :=
  s.setFB (ps.foldl (fun fb p => fb.toggle p.2 p.1) s.FB)

/-- Some part of the state after one step. -/
def after {α : Type} (f : State → α) (s : State) : Option α :=
  match step s with
  | .next t => some (f t)
  | .fault _ => none
  | .refused _ => none

/-- The error of one step. -/
def faultOf (s : State) : Option Fault :=
  match step s with
  | .next _ => none
  | .fault e => some e
  | .refused _ => none

/-- What the step will run. -/
def decodedAt (s : State) : Option Instr :=
  match fetch s with
  | .word w => decodeWord s.params.ignoreLowNibble w
  | .outOfRange _ => none

theorem runs_of_decodedAt {s : State} {i : Instr} (h : decodedAt s = some i) : s.runs i := by
  unfold decodedAt at h
  split at h
  · rename_i w hf; exact ⟨w, hf, h⟩
  · cases h

theorem not_runs {s : State} {i j : Instr} (h : decodedAt s = some i) (hne : i ≠ j) : ¬ s.runs j :=
  fun hj => hne (runs_unique (runs_of_decodedAt h) hj)

/-! ### Decoding: each row's word, bit by bit from R85, with distinct field values -/

theorem test_decode_family0 : decodeTableWord 16 0b0000000011100000 = some .cls ∧
    decodeTableWord 16 0b0000000011101110 = some .ret := by decide

theorem test_decode_nnn : decodeTableWord 16 0b0001_0010_0011_0100 = some (.jp 0x234) ∧
    decodeTableWord 16 0b0010_0101_0110_0111 = some (.call 0x567) ∧
    decodeTableWord 16 0b1010_1000_1001_1010 = some (.ldINnn 0x89A) ∧
    decodeTableWord 16 0b1011_1011_1100_1101 = some (.jpV0Nnn 0xBCD) := by decide

theorem test_decode_xkk : decodeTableWord 16 0b0011_0001_0010_0011 = some (.seVxKk 1 0x23) ∧
    decodeTableWord 16 0b0100_0010_0011_0100 = some (.sneVxKk 2 0x34) ∧
    decodeTableWord 16 0b0110_1010_0010_1011 = some (.ldVxKk 10 0x2B) ∧
    decodeTableWord 16 0b0111_1111_0000_0001 = some (.addVxKk 15 0x01) ∧
    decodeTableWord 16 0b1100_0101_1111_0000 = some (.rnd 5 0xF0) := by decide

theorem test_decode_xy0 : decodeTableWord 16 0b0101_0001_0010_0000 = some (.seVxVy 1 2) ∧
    decodeTableWord 16 0b1001_0011_0100_0000 = some (.sneVxVy 3 4) := by decide

theorem test_decode_family8_low : decodeTableWord 16 0b1000_0001_0010_0000 = some (.ldVxVy 1 2) ∧
    decodeTableWord 16 0b1000_0001_0010_0001 = some (.orVxVy 1 2) ∧
    decodeTableWord 16 0b1000_0001_0010_0010 = some (.andVxVy 1 2) ∧
    decodeTableWord 16 0b1000_0001_0010_0011 = some (.xorVxVy 1 2) := by decide

theorem test_decode_family8_high : decodeTableWord 16 0b1000_0001_0010_0100 = some (.addVxVy 1 2) ∧
    decodeTableWord 16 0b1000_0001_0010_0101 = some (.sub 1 2) ∧
    decodeTableWord 16 0b1000_0001_0010_0110 = some (.shr 1 2) ∧
    decodeTableWord 16 0b1000_0001_0010_0111 = some (.subn 1 2) ∧
    decodeTableWord 16 0b1000_0001_0010_1110 = some (.shl 1 2) := by decide

theorem test_decode_draw_and_keys : decodeTableWord 16 0b1101_0001_0010_0101 = some (.drw 1 2 5) ∧
    decodeTableWord 16 0b1110_0111_1001_1110 = some (.skp 7) ∧
    decodeTableWord 16 0b1110_1000_1010_0001 = some (.sknp 8) := by decide

theorem test_decode_familyF_low : decodeTableWord 16 0b1111_0011_0000_0111 = some (.ldVxDt 3) ∧
    decodeTableWord 16 0b1111_0010_0000_1010 = some (.ldVxK 2) ∧
    decodeTableWord 16 0b1111_0001_0001_0101 = some (.ldDtVx 1) ∧
    decodeTableWord 16 0b1111_0100_0001_1000 = some (.ldStVx 4) ∧
    decodeTableWord 16 0b1111_0101_0001_1110 = some (.addIVx 5) := by decide

theorem test_decode_familyF_high : decodeTableWord 16 0b1111_0110_0010_1001 = some (.ldFVx 6) ∧
    decodeTableWord 16 0b1111_0111_0011_0011 = some (.ldBVx 7) ∧
    decodeTableWord 16 0b1111_1000_0101_0101 = some (.ldMemIVx 8) ∧
    decodeTableWord 16 0b1111_1001_0110_0101 = some (.ldVxMemI 9) := by decide

/-- UNK-1 to UNK-7, SEV-3, SNEV-3, ALU-U, and the two rows of R77. -/
theorem test_decode_unknown : [0x0000, 0x00E1, 0x01E0, 0x0123, 0xE09F, 0xF000, 0x800F, 0x5121, 0x912F, 0x8128].all
    (fun w => decodeTableWord 16 w == none) = true ∧
    decodeWord true 0x5121 = some (.seVxVy 1 2) ∧ decodeWord true 0x912F = some (.sneVxVy 1 2) := by decide

theorem test_decode_bytes_are_big_endian : decodeBytes false [0x6A, 0x2B, 0xFF] = .ok (.ldVxKk 10 0x2B) ∧
    decodeBytes false [0x00, 0xE1] = .error (.unknown 0x00E1) ∧ decodeBytes false [0x6A] = .error .truncated ∧
    encodeBytes (.drw 1 2 5) = [0xD1, 0x25] := ⟨rfl, rfl, rfl, by decide⟩

/-! ### What is not well formed is refused -/

theorem test_operands_too_wide_are_refused : operandsFit [(4, 16)] = false ∧ operandsFit [(8, 256)] = false ∧
    operandsFit [(12, 4096)] = false ∧ operandsFit [(4, 15), (8, 255), (12, 4095)] = true := by decide

/-- LD-1, LD-2: 3584 bytes fit and 3585 do not. -/
theorem test_image_too_long_is_refused : imageFits (List.replicate 3585 0) = false ∧
    imageFits (List.replicate 3584 0) = true := by
  simp only [imageFits, List.length_replicate]; decide

theorem test_font_of_wrong_size_is_refused : fontWellFormed (List.replicate 79 0) = false ∧
    fontWellFormed Config.font = true := by decide

/-! ### One step: control transfer -/

theorem test_ret_1 : after (fun t => (t.pc, t.sp, t.S[0])) { loadedAt 0x30A 0x00EE with
    sp := 1, S := (Vector.replicate 16 0).set 0 0x202 } = some (0x202, 0, 0x202) := by decide
theorem test_ret_2 : faultOf { pre 0x00EE [] with DT := 3 } = some (.stackUnderflow 0x300 0x00EE) := by decide
theorem test_jp_1 : after (·.pc) (pre 0x1234 []) = some 0x234 := by decide
theorem test_jp_2 : after (·.pc) (pre 0x1301 []) = some 0x301 := by decide
theorem test_call_2 : after (fun t => (t.pc, t.sp, t.S[15])) { pre 0x2300 [] with sp := 15 } =
    some (0x300, 16, 0x302) := by decide
theorem test_call_3 : faultOf { pre 0x2300 [] with sp := 16, DT := 3 } = some (.stackOverflow 0x300 0x2300) := by decide
theorem test_se_1 : after (·.pc) (pre 0x3342 [(3, 0x42)]) = some 0x304 := by decide
theorem test_se_2 : after (·.pc) (pre 0x3342 [(3, 0x41)]) = some 0x302 := by decide
theorem test_sne_1 : after (·.pc) (pre 0x4342 [(3, 0x41)]) = some 0x304 := by decide
theorem test_sne_2 : after (·.pc) (pre 0x4342 [(3, 0x42)]) = some 0x302 := by decide
theorem test_sev_1 : after (·.pc) (pre 0x5120 [(1, 7), (2, 7)]) = some 0x304 := by decide
theorem test_sev_4 : after (·.pc) { pre 0x5121 [(1, 7), (2, 7)] with
    params := { Params.default with ignoreLowNibble := true } } = some 0x304 := by decide
theorem test_snev_1 : after (·.pc) (pre 0x9120 [(1, 7), (2, 8)]) = some 0x304 := by decide
theorem test_snev_2 : after (·.pc) (pre 0x9120 [(1, 7), (2, 7)]) = some 0x302 := by decide
theorem test_jpv0_1 : after (·.pc) (pre 0xB300 [(0, 0x10)]) = some 0x310 := by decide
theorem test_jpv0_2 : after (·.pc) (pre 0xBFFF [(0, 0xFF)]) = some 0x10FE := by decide

/-! ### One step: fetch and unknown words -/

theorem test_fet_1 : after (·.pc) (loadedAt 0xFFE 0x3000) = some 0x1002 := by decide
theorem test_fet_3_5 : faultOf (State.reset.setPc 0xFFF) = some (.memoryBounds 0x1000 0xFFF none) ∧
    faultOf (State.reset.setPc 0x10FE) = some (.memoryBounds 0x10FE 0x10FE none) := by decide
theorem test_unk_1 : after (fun t => (t.pc, t.DT, t.ST, t.reports)) { pre 0x0000 [] with DT := 2, ST := 1 } =
    some (0x302, 1, 0, [{ pc0 := 0x300, opcode := 0x0000 }]) := by decide
/-- LD-4. -/
theorem test_ld_4 : after (fun t => (t.pc, t.reports)) State.reset =
    some (0x202, [{ pc0 := 0x200, opcode := 0x0000 }]) := by decide
/-- The statuses of R211. -/
theorem test_codes : ((cycle (pre 0x6000 [])).2.code, (cycle (pre 0x0000 [])).2.code, (cycle (pre 0x00EE [])).2.code,
    (cycle (pre 0xE19E [(1, 0x10)])).2.code) = (some 0, some 3, some 2, some 4) := by decide

/-! ### One step: arithmetic and logic -/

theorem test_ldk_1 : after (fun t => (t.reg 5, t.pc)) (pre 0x65AB [(5, 0x99)]) = some (0xAB, 0x302) := by decide
theorem test_addk_1 : after (fun t => (t.reg 3, t.reg VF)) (pre 0x7302 [(3, 0xFF), (VF, 0xAA)]) =
    some (0x01, 0xAA) := by decide
theorem test_ldv_1 : after (fun t => (t.reg 1, t.reg 2)) (pre 0x8120 [(2, 0x5A)]) = some (0x5A, 0x5A) := by decide
theorem test_or_1 : after (fun t => (t.reg 1, t.reg VF)) (pre 0x8121 [(1, 0xF0), (2, 0x0F), (VF, 0x77)]) =
    some (0xFF, 0x77) := by decide
theorem test_and_1 : after (·.reg 1) (pre 0x8122 [(1, 0xF3), (2, 0x3F)]) = some 0x33 := by decide
theorem test_xor_1 : after (·.reg 1) (pre 0x8123 [(1, 0xFF), (2, 0x0F)]) = some 0xF0 := by decide
theorem test_add_2 : after (fun t => (t.reg 1, t.reg VF)) (pre 0x8124 [(1, 0x80), (2, 0x7F)]) =
    some (0xFF, 0) := by decide
theorem test_add_3 : after (fun t => (t.reg VF, t.reg 1)) (pre 0x8F14 [(VF, 0xF0), (1, 0x20)]) =
    some (0x10, 0x20) := by decide
theorem test_sub_2 : after (fun t => (t.reg 1, t.reg VF)) (pre 0x8125 [(1, 3), (2, 5)]) = some (0xFE, 0) := by decide
theorem test_sub_4 : after (·.reg VF) (pre 0x8F25 [(VF, 0x10), (2, 5)]) = some 0xFC := by decide
theorem test_shr_2 : after (fun t => (t.reg 1, t.reg 2, t.reg VF)) { pre 0x8126 [(1, 0x05), (2, 0x81)] with
    params := { Params.default with shiftSource := .vy } } = some (0x40, 0x81, 1) := by decide
theorem test_shr_3 : after (·.reg VF) (pre 0x8F06 [(VF, 0x03)]) = some 0 := by decide
theorem test_subn_1 : after (fun t => (t.reg 1, t.reg VF)) (pre 0x8127 [(1, 3), (2, 5)]) = some (2, 1) := by decide
theorem test_subn_2 : after (fun t => (t.reg 1, t.reg VF)) (pre 0x8127 [(1, 5), (2, 3)]) = some (0xFE, 0) := by decide
theorem test_shl_1 : after (fun t => (t.reg 1, t.reg VF)) (pre 0x812E [(1, 0x81), (2, 0x55)]) = some (2, 1) := by decide
theorem test_shl_3 : after (·.reg VF) (pre 0x8F0E [(VF, 0x81)]) = some 0x02 := by decide
/-- RND-2: the mask 0 hides the draw. -/
theorem test_rnd_2 : after (fun t => (t.reg 5, t.draws)) (pre 0xC500 [(5, 9)]) = some (0, 1) := by
  have h : ∀ b : Byte, b &&& 0 = 0 := by intro b; simp
  have e : after (fun t => (t.reg 5, t.draws)) (pre 0xC500 [(5, 9)]) = some (Config.randomByte 0 &&& 0, 1) := rfl
  rw [e, h]

/-! ### One step: index and memory -/

theorem test_ldi_1 : after (·.I) (pre 0xA123 []) = some 0x123 := by decide
theorem test_addi_3 : after (·.I) { pre 0xF21E [(2, 1)] with I := 0xFFFF } = some 0 := by decide
theorem test_fnt_1 : after (·.I) (pre 0xF429 [(4, 0x0A)]) = some 0x082 := by decide
theorem test_fnt_2 : after (·.I) (pre 0xF429 [(4, 0xFF)]) = some 0x54B := by decide
theorem test_bcd_1 : after (fun t => (t.M.read 0x400, t.M.read 0x401, t.M.read 0x402, t.I))
    { pre 0xF633 [(6, 157)] with I := 0x400 } = some (1, 5, 7, 0x400) := by decide
theorem test_bcd_5 : faultOf { pre 0xF633 [(6, 42)] with I := 0xFFE, DT := 2 } =
    some (.memoryBounds 0x1000 0x300 (some 0xF633)) := by decide
theorem test_str_1 : after (fun t => (t.M.read 0x400, t.M.read 0x401, t.M.read 0x402, t.M.read 0x403, t.I))
    { pre 0xF255 [(0, 1), (1, 2), (2, 3), (3, 4)] with I := 0x400 } = some (1, 2, 3, 0, 0x400) := by decide
theorem test_str_3 : faultOf { pre 0xFF55 [] with I := 0xFF1 } = some (.memoryBounds 0x1000 0x300 (some 0xFF55)) := by
  decide
theorem test_ldr_2 : after (fun t => (t.reg 0, t.reg 1, t.reg 5, t.reg 14, t.reg VF)) { pre 0xFF65 [] with I := 0x050 } =
    some (0xF0, 0x90, 0x20, 0xF0, 0xF0) := by decide
theorem test_ldr_1 : after (fun t => (t.reg 0, t.reg 1, t.reg 2, t.reg 3))
    (withBytes 0x400 [1, 2, 3, 9] { pre 0xF265 [(3, 0x44)] with I := 0x400 }) = some (1, 2, 3, 0x44) := by decide

/-! ### One step: display -/

/-- How many pixels are set. -/
def countSet (fb : Framebuffer) : Nat := (fb.toList.map fun row => row.toList.count true).sum

theorem test_cls_1 : after (fun t => countSet t.FB) (withPixels [(0, 0), (63, 31)] (pre 0x00E0 [])) = some 0 := by decide
/-- DRW-3. -/
theorem test_drw_3 : after (fun t => (countSet t.FB, t.FB.pixel 0 0, t.FB.pixel 0 1, t.FB.pixel 0 3, t.reg VF))
    (withPixels [(0, 0)] { pre 0xD011 [] with I := 0x050 }) = some (3, false, true, true, 1) := by decide
/-- DRW-5 and DRW-6: `clip` sets the first four pixels alone, `wrap` all eight. -/
theorem test_drw_5_6 : after (fun t => (countSet t.FB, t.FB.pixel 0 60, t.FB.pixel 0 63))
    (withBytes 0x400 [0xFF] { pre 0xD011 [(0, 60)] with I := 0x400 }) = some (4, true, true) ∧
    after (fun t => (countSet t.FB, t.FB.pixel 0 60, t.FB.pixel 0 63, t.FB.pixel 0 0, t.FB.pixel 0 3))
    (withBytes 0x400 [0xFF] { pre 0xD011 [(0, 60)] with
      I := 0x400, params := { Params.default with drawEdge := .wrap } }) = some (8, true, true, true, true) := by decide
theorem test_readout : (readFramebuffer (withPixels [(2, 1)] State.reset))[66] = 0xFFFFFFFF ∧
    (readFramebuffer (withPixels [(2, 1)] State.reset))[65] = 0x00000000 := by
  simp only [readFramebuffer, Vector.getElem_ofFn]; decide

/-! ### One step: keypad and timers -/

theorem test_skp_1 : after (·.pc) (withKeys [7] (pre 0xE19E [(1, 7)])) = some 0x304 := by decide
theorem test_skp_3 : faultOf (pre 0xE19E [(1, 0x10)]) = some (.memoryBounds 0x10 0x300 (some 0xE19E)) := by decide
theorem test_sknp_1 : after (·.pc) (pre 0xE1A1 [(1, 7)]) = some 0x304 := by decide
theorem test_sknp_2 : after (·.pc) (withKeys [7] (pre 0xE1A1 [(1, 7)])) = some 0x302 := by decide
theorem test_lddt_1 : after (fun t => (t.reg 3, t.DT)) { pre 0xF307 [] with DT := 5 } = some (5, 4) := by decide
theorem test_wait_1 : after (fun t => (t.pc, t.DT)) { pre 0xF20A [] with DT := 2 } = some (0x300, 1) := by decide
theorem test_wait_2 : after (fun t => (t.pc, t.reg 2)) (withKeys [7, 3] (pre 0xF20A [])) = some (0x302, 3) := by decide
theorem test_sdt_1 : after (·.DT) (pre 0xF415 [(4, 10)]) = some 9 := by decide
theorem test_sdt_3 : after (·.DT) { pre 0xF415 [(4, 0)] with DT := 9 } = some 0 := by decide
theorem test_sst_1 : after (fun t => (readSoundTimer t, t.DT)) (pre 0xF418 [(4, 10)]) = some (9, 0) := by decide

/-! ### The host's operations -/

/-- W11: a second, shorter image overwrites the first one's head and leaves its tail. -/
theorem test_loading_twice : (match loadProgram [0x60, 0x01, 0x61, 0x02] State.reset with
    | .next s => (match loadProgram [0x62, 0x03] s with
      | .next t => some (t.M.read 0x200, t.M.read 0x201, t.M.read 0x202, t.M.read 0x203, t.pc)
      | _ => none)
    | _ => none) = some (0x62, 0x03, 0x61, 0x02, 0x200) := by decide

theorem test_construct_default : construct Params.default Config.font .zero = State.reset := by decide

theorem test_with_fetch_word : decodedAt (State.reset.withFetchWord 16 0xD125) = some (.drw 1 2 5) ∧
    decodedAt ((State.reset.setPc 0xFFF).withFetchWord 16 0xD125) = some (.drw 1 2 5) := by decide

/-! ### Witnesses: the hypotheses of each statement, met together, at the boundaries of its clauses -/

theorem next_of_after {α : Type} {f : State → α} {s : State} {a : α} (h : after f s = some a) : ∃ t, step s = .next t := by
  unfold after at h
  split at h
  · exact ⟨_, ‹_›⟩
  · cases h
  · cases h

theorem fault_of_faultOf {s : State} {e : Fault} (h : faultOf s = some e) : step s = .fault e := by
  unfold faultOf at h
  split at h <;> cases h
  assumption

theorem witness_ResetLeavesConstructionState :
    (0x04F < 0x050 ∨ 0x0A0 ≤ 0x04F) ∧ (0x0A0 < 0x050 ∨ 0x0A0 ≤ 0x0A0) := by decide

/-- A store over a listed byte, and an unknown word. -/
theorem witness_InvariantKeptByEveryStep :
    (∃ s t : State, s.Inv ∧ s.M ≠ [] ∧ step s = .next t) ∧ (∃ t, State.reset.Inv ∧ step State.reset = .next t) := by
  have hs : ({ pre 0xF633 [(6, 157)] with I := 0x300 } : State).Inv := by unfold State.Inv; decide
  have hr : State.reset.Inv := by unfold State.Inv; decide
  obtain ⟨t, ht⟩ := next_of_after (f := (·.pc)) (s := { pre 0xF633 [(6, 157)] with I := 0x300 }) (a := 0x302) (by decide)
  obtain ⟨u, hu⟩ := next_of_after test_ld_4
  exact ⟨⟨_, t, hs, by decide, ht⟩, u, hr, hu⟩

theorem witness_BoundsCheckNamesFirstBadAddress : firstOutOfRange 0xFFE 2 = none ∧ firstOutOfRange 0xFFF 0 = none ∧
    firstOutOfRange 0xFFF 2 = some 0x1000 ∧ firstOutOfRange 0x1005 3 = some 0x1005 := by decide

theorem witness_EncodeOfDecodedWordIsTheWord : decodeWord false 0xFF65 = some (.ldVxMemI 15) ∧
    decodeWord false 0x00E0 = some .cls := by decide

/-- Both sides of each row of R76. -/
theorem witness_UnknownWordsAreThoseOfTheTable :
    [0x00DF, 0x00E1, 0x00ED, 0x00EF, 0x5001, 0x500F, 0x8008, 0x800D, 0x800F, 0x9001, 0xE09D, 0xE0A2, 0xF064, 0xF066].all
      (fun w => decodeWord false w == none) = true ∧
    [0x00E0, 0x00EE, 0x5000, 0x8000, 0x8007, 0x800E, 0x9000, 0xE09E, 0xE0A1, 0xF007, 0xF065].all
      (fun w => (decodeWord false w).isSome) = true := by decide

theorem witness_RelaxedDecodeIgnoresTheLowNibble : (0x5FFF : Word).toNat / 4096 = 5 ∧ (0x9001 : Word).toNat / 4096 = 9 ∧
    (0x8008 : Word).toNat / 4096 ≠ 5 ∧ (0x8008 : Word).toNat / 4096 ≠ 9 := by decide

theorem witness_OpcodeMapRowsAreDisjointAndComplete : (∃ h : 15 < rows.length, rows[15].matches 0x8126 = true) ∧
    decodeWord false 0x8126 = some (.shr 1 2) ∧ decodeWord false 0x8128 = none := by
  refine ⟨⟨by decide, by decide⟩, by decide, by decide⟩

theorem witness_StepRunsTheDecodedInstruction : (loadedAt 0xFFE 0x1FFE).pc.toNat ≤ 0xFFE ∧
    decodeWord (loadedAt 0xFFE 0x1FFE).params.ignoreLowNibble ((loadedAt 0xFFE 0x1FFE).M.read 0xFFE ++
      (loadedAt 0xFFE 0x1FFE).M.read 0xFFF : BitVec (8 + 8)) = some (.jp 0xFFE) := by decide

theorem witness_UnknownWordIsAReportedNoOp : fetch (pre 0x0123 []) = .word 0x0123 ∧
    decodeWord (pre 0x0123 []).params.ignoreLowNibble 0x0123 = none := by decide

theorem witness_FetchIsBoundsChecked : (State.reset.setPc 0xFFE).pc.toNat ≤ 0xFFE ∧
    (State.reset.setPc 0xFFF).pc.toNat = 0xFFF ∧ 0xFFF < (State.reset.setPc 0x1000).pc.toNat := by decide

/-- The three kinds of cycle: FX15, FX18, and neither. -/
theorem witness_TimersTickOncePerCompletedCycle :
    (∃ s t, step s = .next t ∧ s.runs (.ldDtVx 4) ∧ ∀ x, ¬ s.runs (.ldStVx x)) ∧
    (∃ s t, step s = .next t ∧ s.runs (.ldStVx 4) ∧ ∀ x, ¬ s.runs (.ldDtVx x)) ∧
    (∃ s t, step s = .next t ∧ (∀ x, ¬ s.runs (.ldDtVx x)) ∧ ∀ x, ¬ s.runs (.ldStVx x)) := by
  obtain ⟨t1, h1⟩ := next_of_after test_sdt_1
  obtain ⟨t2, h2⟩ := next_of_after test_sst_1
  obtain ⟨t3, h3⟩ := next_of_after test_lddt_1
  exact ⟨⟨_, t1, h1, runs_of_decodedAt (by decide), fun x => not_runs (i := .ldDtVx 4) (by decide) (by simp)⟩,
    ⟨_, t2, h2, runs_of_decodedAt (by decide), fun x => not_runs (i := .ldStVx 4) (by decide) (by simp)⟩,
    ⟨_, t3, h3, fun x => not_runs (i := .ldVxDt 3) (by decide) (by simp),
      fun x => not_runs (i := .ldVxDt 3) (by decide) (by simp)⟩⟩

theorem witness_AbortedCycleChangesNothingAndRepeats : ∃ s e, step s = .fault e := ⟨_, _, fault_of_faultOf test_call_3⟩

/-- Each row of R212 at the first value that faults and the last that does not. -/
theorem witness_InstructionsFaultOnlyAsListed :
    ((∃ e, exec .ret State.reset = .fault e) ∧ ∃ t, exec .ret { State.reset with sp := 1 } = .next t) ∧
    ((∃ e, exec (.call 0) { State.reset with sp := 16 } = .fault e) ∧
      ∃ t, exec (.call 0) { State.reset with sp := 15 } = .next t) ∧
    ((∃ e, exec (.drw 0 1 3) (State.reset.setI 0xFFE) = .fault e) ∧
      ∃ t, exec (.drw 0 1 0) (State.reset.setI 0xFFFF) = .next t) ∧
    ((∃ e, exec (.ldBVx 0) (State.reset.setI 0xFFE) = .fault e) ∧
      ∃ t, exec (.ldBVx 0) (State.reset.setI 0xFFD) = .next t) ∧
    ((∃ e, exec (.ldMemIVx 15) (State.reset.setI 0xFF1) = .fault e) ∧
      ∃ t, exec (.ldMemIVx 15) (State.reset.setI 0xFF0) = .next t) ∧
    ((∃ e, exec (.ldVxMemI 1) (State.reset.setI 0xFFF) = .fault e) ∧
      ∃ t, exec (.ldVxMemI 0) (State.reset.setI 0xFFF) = .next t) ∧
    ((∃ e, exec (.skp 1) (State.reset.setV 1 16) = .fault e) ∧ ∃ t, exec (.skp 1) (State.reset.setV 1 15) = .next t) ∧
    ((∃ e, exec (.sknp 1) (State.reset.setV 1 16) = .fault e) ∧
      ∃ t, exec (.sknp 1) (State.reset.setV 1 15) = .next t) :=
  ⟨⟨⟨_, rfl⟩, _, rfl⟩, ⟨⟨_, rfl⟩, _, rfl⟩, ⟨⟨_, rfl⟩, _, rfl⟩, ⟨⟨_, rfl⟩, _, rfl⟩, ⟨⟨_, rfl⟩, _, rfl⟩,
    ⟨⟨_, rfl⟩, _, rfl⟩, ⟨⟨_, rfl⟩, _, rfl⟩, ⟨⟨_, rfl⟩, _, rfl⟩⟩

theorem witness_NoStepWritesKeypadOrParams : ∃ s t, step s = .next t := ⟨_, next_of_after test_ldk_1⟩

/-- One step that is no CLS, DRW, store, call, return, key instruction or write of `I`. -/
theorem witness_OnlyClsAndDrwWriteTheFramebuffer :
    ∃ s t, step s = .next t ∧ ¬ s.runs .cls ∧ ∀ x y n, ¬ s.runs (.drw x y n) := by
  obtain ⟨t, h⟩ := next_of_after test_ldk_1
  have d : decodedAt (pre 0x65AB [(5, 0x99)]) = some (.ldVxKk 5 0xAB) := by decide
  exact ⟨_, t, h, not_runs d (by simp), fun x y n => not_runs d (by simp)⟩

theorem witness_OnlyStoresWriteMemory :
    ∃ s t, step s = .next t ∧ (∀ x, ¬ s.runs (.ldBVx x)) ∧ ∀ x, ¬ s.runs (.ldMemIVx x) := by
  obtain ⟨t, h⟩ := next_of_after test_ldk_1
  have d : decodedAt (pre 0x65AB [(5, 0x99)]) = some (.ldVxKk 5 0xAB) := by decide
  exact ⟨_, t, h, fun x => not_runs d (by simp), fun x => not_runs d (by simp)⟩

theorem witness_OnlyThreeInstructionsWriteI :
    ∃ s t, step s = .next t ∧ (∀ n, ¬ s.runs (.ldINnn n)) ∧ (∀ x, ¬ s.runs (.addIVx x)) ∧ ∀ x, ¬ s.runs (.ldFVx x) := by
  obtain ⟨t, h⟩ := next_of_after test_ldk_1
  have d : decodedAt (pre 0x65AB [(5, 0x99)]) = some (.ldVxKk 5 0xAB) := by decide
  exact ⟨_, t, h, fun x => not_runs d (by simp), fun x => not_runs d (by simp), fun x => not_runs d (by simp)⟩

theorem witness_OnlyKeyInstructionsReadTheKeypad :
    ∃ s t, (∀ x, ¬ s.runs (.skp x)) ∧ (∀ x, ¬ s.runs (.sknp x)) ∧ (∀ x, ¬ s.runs (.ldVxK x)) ∧ step s = .next t := by
  obtain ⟨t, h⟩ := next_of_after test_ldk_1
  have d : decodedAt (pre 0x65AB [(5, 0x99)]) = some (.ldVxKk 5 0xAB) := by decide
  exact ⟨_, t, fun x => not_runs d (by simp), fun x => not_runs d (by simp), fun x => not_runs d (by simp), h⟩

/-- A call, a return, and neither. -/
theorem witness_OnlyCallAndReturnTouchTheStack :
    (∃ s t, step s = .next t ∧ s.runs (.call 0x300)) ∧ (∃ s t, step s = .next t ∧ s.runs .ret) ∧
    (∃ s t, step s = .next t ∧ (∀ n, ¬ s.runs (.call n)) ∧ ¬ s.runs .ret) := by
  obtain ⟨t1, h1⟩ := next_of_after test_call_2
  obtain ⟨t2, h2⟩ := next_of_after test_ret_1
  obtain ⟨t3, h3⟩ := next_of_after test_ldk_1
  have d : decodedAt (pre 0x65AB [(5, 0x99)]) = some (.ldVxKk 5 0xAB) := by decide
  exact ⟨⟨_, t1, h1, runs_of_decodedAt (by decide)⟩, ⟨_, t2, h2, runs_of_decodedAt (by decide)⟩,
    ⟨_, t3, h3, fun n => not_runs d (by simp), not_runs d (by simp)⟩⟩

/-- A register written in each of the listed groups. -/
theorem witness_RegistersWrittenOnlyAsListed :
    (∃ t, exec (.ldVxKk 3 7) State.reset = .next t ∧ t.reg 3 ≠ State.reset.reg 3) ∧
    (∃ t, exec (.ldVxVy 3 4) (State.reset.setV 4 7) = .next t ∧ t.reg 3 ≠ (State.reset.setV 4 7).reg 3) ∧
    (∃ t, exec (.sub 3 4) State.reset = .next t ∧ t.reg VF ≠ State.reset.reg VF) ∧
    (∃ t, exec (.drw 0 1 0) (State.reset.setV VF 1) = .next t ∧ t.reg VF ≠ (State.reset.setV VF 1).reg VF) ∧
    (∃ t, exec (.ldVxK 3) (withKeys [9] State.reset) = .next t ∧ t.reg 3 ≠ (withKeys [9] State.reset).reg 3) ∧
    (∃ t, exec (.ldVxMemI 4) (State.reset.setI 0x050) = .next t ∧ t.reg 4 ≠ (State.reset.setI 0x050).reg 4) :=
  ⟨⟨_, rfl, by decide⟩, ⟨_, rfl, by decide⟩, ⟨_, rfl, by decide⟩, ⟨_, rfl, by decide⟩, ⟨_, rfl, by decide⟩,
    ⟨_, rfl, by decide⟩⟩

theorem witness_SoundTimerIsNotObservable : (∃ s t, step s = .next t) ∧ ∃ s e, step s = .fault e :=
  ⟨⟨_, next_of_after test_sst_1⟩, _, _, fault_of_faultOf test_call_3⟩

/-- A call from `sp = 15` and an underflow, with the free entries replaced. -/
theorem witness_FreeStackEntriesAreNotObservable :
    (∃ (s t : State) (S' : Vector Word 16), (∀ j : Fin 16, j.val < s.sp.val → S'[j] = s.S[j]) ∧ S' ≠ s.S ∧
      step s = .next t) ∧
    (∃ (s : State) (S' : Vector Word 16) (e : Fault), (∀ j : Fin 16, j.val < s.sp.val → S'[j] = s.S[j]) ∧ S' ≠ s.S ∧
      step s = .fault e) := by
  obtain ⟨t, h⟩ := next_of_after test_call_2
  exact ⟨⟨_, t, (Vector.replicate 16 0).set 15 9, by decide, by decide, h⟩,
    ⟨_, Vector.replicate 16 9, _, by decide, by decide, fault_of_faultOf test_ret_2⟩⟩

theorem witness_JumpSetsPc : (loadedAt 0x200 0x1200).runs (.jp 0x200) ∧
    (0x200 : Addr12).toNat = (loadedAt 0x200 0x1200).pc.toNat := ⟨runs_of_decodedAt (by decide), by decide⟩

theorem witness_ComputedJumpAddsV0 : 0xFFE < ((State.reset.setV 0 1).reg 0).toNat + (0xFFE : Addr12).toNat := by decide

theorem witness_CallPushesAdvancedPc : ({ State.reset with sp := 15 } : State).sp.val < 16 ∧
    ({ pre 0x2300 [] with sp := 16 } : State).sp.val = 16 ∧ ({ pre 0x2300 [] with sp := 16 } : State).runs (.call 0x300) :=
  ⟨by decide, by decide, runs_of_decodedAt (by decide)⟩

theorem witness_ReturnPopsTheTopEntry : ({ State.reset with sp := 1 } : State).sp.val = (0 : Fin 16).val + 1 ∧
    ({ State.reset with sp := 16 } : State).sp.val = (15 : Fin 16).val + 1 ∧ (pre 0x00EE []).sp.val = 0 ∧
    (pre 0x00EE []).runs .ret := ⟨by decide, by decide, by decide, runs_of_decodedAt (by decide)⟩

theorem witness_ReturnUndoesCall : ∃ t, exec (.call 0x300) { State.reset with sp := 15 } = .next t := ⟨_, rfl⟩

/-- Equal and unequal, and the skip off the end of memory. -/
theorem witness_SkipsOnImmediate : State.reset.reg 3 = 0 ∧ State.reset.reg 3 ≠ 1 ∧ (State.reset.setPc 0xFFE).reg 3 = 0 ∧
    (State.reset.setPc 0xFFE).reg 3 ≠ 1 ∧ (State.reset.setPc 0xFFE).pc = 0xFFE := by decide

theorem witness_SkipsOnRegisters : State.reset.reg 1 = State.reset.reg 2 ∧
    (State.reset.setV 1 1).reg 1 ≠ (State.reset.setV 1 1).reg 2 := by decide

/-- For AddSetsCarry, SubSetsNoBorrow, SubnSetsNoBorrow, ShiftRightMovesOutBitZero and ShiftLeftMovesOutBitSeven: registers
other than `VF` and `VF` itself, for either operand; a sum of 255 and one of 256. -/
theorem witness_FlagOperations : (1 : Reg) ≠ VF ∧ (14 : Reg) ≠ VF ∧ (15 : Reg) = VF ∧
    ¬ ((State.reset.setV 1 0xFF).reg 1).toNat + ((State.reset.setV 1 0xFF).reg 2).toNat > 255 ∧
    (((State.reset.setV 1 0xFF).setV 2 1).reg 1).toNat + (((State.reset.setV 1 0xFF).setV 2 1).reg 2).toNat > 255 := by
  decide

theorem witness_RandomByteIsMasked : (0x0F : Byte).getLsbD 7 = false := by decide

/-- The last legal window of FX33 and the first that leaves the memory; an address on each side of the window. -/
theorem witness_BcdStoresThreeDigits : (State.reset.setI 0xFFD).M.wf = true ∧ (State.reset.setI 0xFFD).I.toNat + 2 ≤ 0xFFF ∧
    0xFFF < (State.reset.setI 0xFFE).I.toNat + 2 ∧ 0xFFC < (State.reset.setI 0xFFD).I.toNat ∧
    (State.reset.setI 0xFFC).I.toNat + 2 < 0xFFF := by decide

/-- The last legal window of FX55 and FX65 with `x = 15`, and the first that leaves the memory. -/
theorem witness_StoreAndLoadRegisters : (State.reset.setI 0xFF0).M.wf = true ∧
    (State.reset.setI 0xFF0).I.toNat + (15 : Reg).val ≤ 0xFFF ∧ 0xFFF < (State.reset.setI 0xFF1).I.toNat + (15 : Reg).val ∧
    (0 : Reg).val ≤ (0 : Reg).val ∧ (0 : Reg).val < (1 : Reg).val ∧ 0xFEF < (State.reset.setI 0xFF0).I.toNat ∧
    (State.reset.setI 0x400).I.toNat + (15 : Reg).val < 0x410 := by decide

theorem witness_StoreThenLoadRestoresRegisters :
    ∃ t, (State.reset.setI 0xFF0).M.wf = true ∧ exec (.ldMemIVx 15) (State.reset.setI 0xFF0) = .next t :=
  ⟨_, by decide, rfl⟩

/-- No row at all, a sprite that ends at 0xFFF, a pixel under a set bit and one that is not, and both cases of the
collision: glyph "0" at (0, 0) over a set and over a clear pixel. -/
theorem witness_DrawXorsTheSpriteAndReportsCollision : ((0 : Fin 16).val = 0 ∨ State.reset.I.toNat + 0 - 1 ≤ 0xFFF) ∧
    ((15 : Fin 16).val = 0 ∨ (State.reset.setI 0xFF1).I.toNat + (15 : Fin 16).val - 1 ≤ 0xFFF) ∧
    (State.reset.setI 0x050).drawHits 0 1 1 0 3 ∧ ¬ (State.reset.setI 0x050).drawHits 0 1 1 0 4 ∧
    (State.reset.setI 0x050).FB.pixel 0 3 = false ∧ (withPixels [(3, 0)] (State.reset.setI 0x050)).FB.pixel 0 3 = true ∧
    (withPixels [(3, 0)] (State.reset.setI 0x050)).drawHits 0 1 1 0 3 := by
  refine ⟨by decide, by decide, ⟨0, 3, by decide, by decide, by decide, by decide, by decide⟩, ?_, by decide, by decide,
    ⟨0, 3, by decide, by decide, by decide, by decide, by decide⟩⟩
  rintro ⟨r, c, hr, hc, hbit, hy, hx⟩
  have h0 : r = 0 := by have : (1 : Fin 16).val = 1 := rfl; omega
  have h4 : c = 4 := by
    have : ((State.reset.setI 0x050).reg 0).toNat % 64 = 0 := by decide
    have : ((4 : Fin 64) : Nat) = 4 := rfl
    omega
  subst h0; subst h4
  exact absurd hbit (by decide)

theorem witness_DrawPastMemoryStops : 0 < (1 : Fin 16).val ∧ 0xFFF < (State.reset.setI 0x1000).I.toNat + (1 : Fin 16).val - 1 ∧
    0xFFF < ({ pre 0xD013 [] with I := 0xFFE } : State).I.toNat + (3 : Fin 16).val - 1 ∧
    ({ pre 0xD013 [] with I := 0xFFE } : State).runs (.drw 0 1 3) :=
  ⟨by decide, by decide, by decide, runs_of_decodedAt (by decide)⟩

/-- The first draw turns a pixel on; with no row every pixel under the sprite (there is none) is set. -/
theorem witness_DrawingTwiceRestoresTheFramebuffer : (0 : Reg) ≠ VF ∧ (14 : Reg) ≠ VF ∧
    (∃ t, exec (.drw 0 14 1) (State.reset.setI 0x050) = .next t) ∧
    (∃ py px, (State.reset.setI 0x050).drawHits 0 14 1 py px ∧ (State.reset.setI 0x050).FB.pixel py px = false) ∧
    (∀ py px, (State.reset.setI 0x050).drawHits 0 14 0 py px → (State.reset.setI 0x050).FB.pixel py px = true) := by
  refine ⟨by decide, by decide, ⟨_, rfl⟩,
    ⟨0, 3, ⟨0, 3, by decide, by decide, by decide, by decide, by decide⟩, by decide⟩, ?_⟩
  rintro py px ⟨r, c, hr, -⟩
  exact absurd hr (Nat.not_lt_zero r)

/-- Key 15, down and not down, and the first index that names no key. -/
theorem witness_KeySkipsReadTheNamedKey : ((State.reset.setV 1 15).reg 1).toNat = (15 : Fin 16).val ∧
    (withKeys [15] (State.reset.setV 1 15)).K[(15 : Fin 16)] = true ∧ (State.reset.setV 1 15).K[(15 : Fin 16)] = false ∧
    15 < ((State.reset.setV 1 16).reg 1).toNat := by decide

theorem witness_KeyWaitTakesTheLowestKeyOrWaits : ((withKeys [7, 3] State.reset).K[(3 : Fin 16)] = true ∧
      ∀ j : Fin 16, j < 3 → (withKeys [7, 3] State.reset).K[j] = false) ∧
    (∀ k : Fin 16, (pre 0xF20A []).K[k] = false) ∧ (pre 0xF20A []).runs (.ldVxK 2) :=
  ⟨by decide, by decide, runs_of_decodedAt (by decide)⟩

/-- LD-1, LD-2 and LD-3: 3584, 3585 and 0 bytes; the last byte of the longest image. -/
theorem witness_LoadProgramCopiesTheImage : State.reset.M.wf = true ∧ (List.replicate 3584 (0 : Byte)).length ≤ 3584 ∧
    3584 < (List.replicate 3585 (0 : Byte)).length ∧ ([] : List Byte).length ≤ 3584 ∧
    3583 < (List.replicate 3584 (0 : Byte)).length ∧ 0x200 + (List.replicate 3584 (0 : Byte)).length ≤ 0x1000 := by
  simp only [List.length_replicate]; decide

theorem witness_ConstructionFixesPcAndFont : fontWellFormed Config.font = true ∧
    (withBytes 0x040 [1, 2] State.reset).M.wf = true ∧ 79 < Config.font.length ∧ (0x04F < 0x050 ∨ 0x0A0 ≤ 0x04F) := by decide

/-- FET-2: at rest at the last address an instruction can have. -/
theorem witness_AtRestOnlyTheTimersChange : (loadedAt 0xFFE 0x1FFE).atRest :=
  ⟨0xFFE, runs_of_decodedAt (by decide), by decide⟩

end Sys2Proof.Tests
end

/-!
The statements about the elements of the state (10_state.md): which instructions write each element, which elements
an instruction cannot see, and the readout of the framebuffer.
-/

namespace Sys2Proof.Machine

/-! ### What a step keeps -/

/-- An element that Advance, the timer tick and the launch record leave alone is kept by a step whose instruction, if
it runs one, keeps it in Execute. -/
theorem step_keeps {α : Type} (f : State → α) {s t : State} (hadvance : f (advance s) = f s)
    (htick : ∀ u, f (timerTick u) = f u) (hrecord : ∀ u r, f (u.record r) = f u)
    (hexec : ∀ i u, s.runs i → exec i (advance s) = .next u → f u = f (advance s)) (h : step s = .next t) :
    f t = f s := by
  rcases step_next_cases h with ⟨w, -, -, rfl⟩ | ⟨i, u, hr, he, rfl⟩
  · rw [hrecord, htick, hadvance]
  · rw [htick, hexec i u hr he, hadvance]

/-- A completed step of a decoded instruction is its Execute and then the tick. -/
theorem step_next_of_runs {s t : State} {i : Instr} (hr : s.runs i) (h : step s = .next t) :
    ∃ u, exec i (advance s) = .next u ∧ t = timerTick u := by
  rw [step_of_runs hr] at h
  cases he : exec i (advance s) with
  | next u => rw [he] at h; cases h; exact ⟨u, rfl, rfl⟩
  | fault e => rw [he] at h; cases h
  | refused r => rw [he] at h; cases h

theorem step_keeps_S {s t : State} (h : step s = .next t) (hcall : ∀ nnn, ¬ s.runs (.call nnn)) : t.S = s.S := by
  refine step_keeps State.S rfl (fun _ => rfl) (fun _ _ => rfl) (fun i u hr he => (exec_writes he).S ?_) h
  rintro nnn rfl; exact hcall nnn hr

theorem step_keeps_sp {s t : State} (h : step s = .next t) (hcall : ∀ nnn, ¬ s.runs (.call nnn))
    (hret : ¬ s.runs .ret) : t.sp = s.sp := by
  refine step_keeps State.sp rfl (fun _ => rfl) (fun _ _ => rfl) (fun i u hr he => (exec_writes he).sp ?_ ?_) h
  · rintro nnn rfl; exact hcall nnn hr
  · rintro rfl; exact hret hr

/-! ### Calls and returns -/

theorem exec_call_of_lt (nnn : Addr12) {s : State} (h : s.sp.val < 16) :
    exec (.call nnn) s = .next ((s.push s.pc h).setPc (zext16 nnn)) := dif_pos h

theorem exec_call_of_full (nnn : Addr12) {s : State} (h : ¬ s.sp.val < 16) :
    exec (.call nnn) s = .fault (.stackOverflow s.pc0 (encode (.call nnn))) := dif_neg h

theorem exec_ret_of_pos {s : State} (h : s.sp.val ≠ 0) :
    exec .ret s = .next ((s.setSp ⟨s.sp.val - 1, by omega⟩).setPc (s.S[s.sp.val - 1]'(by omega))) := dif_neg h

theorem exec_ret_of_empty {s : State} (h : s.sp.val = 0) :
    exec .ret s = .fault (.stackUnderflow s.pc0 (encode .ret)) := dif_pos h

/-- A call that completes had a free entry, and pushed the advanced `pc` there. -/
theorem exec_call_next {nnn : Addr12} {s t : State} (h : exec (.call nnn) s = .next t) :
    ∃ hlt : s.sp.val < 16, t = (s.push s.pc hlt).setPc (zext16 nnn) := by
  by_cases hlt : s.sp.val < 16
  · rw [exec_call_of_lt nnn hlt] at h; cases h; exact ⟨hlt, rfl⟩
  · rw [exec_call_of_full nnn hlt] at h; cases h

/-- A return that completes had an entry on the stack, freed it and went where it says. -/
theorem exec_ret_next {s t : State} (h : exec .ret s = .next t) :
    ∃ _h0 : s.sp.val ≠ 0, t = (s.setSp ⟨s.sp.val - 1, by omega⟩).setPc (s.S[s.sp.val - 1]'(by omega)) := by
  by_cases h0 : s.sp.val = 0
  · rw [exec_ret_of_empty h0] at h; cases h
  · rw [exec_ret_of_pos h0] at h; cases h; exact ⟨h0, rfl⟩

/-! ### Elements that few instructions use -/

/-- A value put in the place of an element that only a few instructions use: the stack entries (R28), the keypad (R31)
or the sound timer (R232). -/
inductive Hidden where
  | S (entries : Vector Word 16)
  | K (keys : Vector Bool 16)
  | ST (b : Byte)

/-- The state with the value in its place. -/
def Hidden.put : Hidden → State → State
  | .S entries, s => { s with S := entries }
  | .K keys, s => { s with K := keys }
  | .ST b, s => { s with ST := b }

/-- The instructions that read or write the element in Execute. -/
def Hidden.usedBy : Hidden → Instr → Bool
  | .S _, .call _ | .S _, .ret => true
  | .K _, .skp _ | .K _, .sknp _ | .K _, .ldVxK _ => true
  | .ST _, .ldStVx _ => true
  | _, _ => false

/-- The same outcome, with `f` applied to a next state. -/
def onNext (f : State → State) : Result → Result
  | .next t => .next (f t)
  | .fault e => .fault e
  | .refused r => .refused r

section
variable (h : Hidden) (s : State)

@[simp] theorem Hidden.put_I : (h.put s).I = s.I := by cases h <;> rfl
@[simp] theorem Hidden.put_pc : (h.put s).pc = s.pc := by cases h <;> rfl
@[simp] theorem Hidden.put_sp : (h.put s).sp = s.sp := by cases h <;> rfl
@[simp] theorem Hidden.put_M : (h.put s).M = s.M := by cases h <;> rfl
@[simp] theorem Hidden.put_params : (h.put s).params = s.params := by cases h <;> rfl
@[simp] theorem Hidden.put_reg (x : Reg) : (h.put s).reg x = s.reg x := by cases h <;> rfl
@[simp] theorem Hidden.put_pc0 : (h.put s).pc0 = s.pc0 := by simp only [State.pc0, Hidden.put_pc]

theorem Hidden.setPc_put (a : Word) : (h.put s).setPc a = h.put (s.setPc a) := by cases h <;> rfl

theorem Hidden.advance_put : advance (h.put s) = h.put (advance s) := by
  simp only [advance, put_pc, setPc_put]

theorem Hidden.skipIf_put (c : Bool) : skipIf c (h.put s) = h.put (skipIf c s) := by
  simp only [skipIf_eq, put_pc, setPc_put]

theorem Hidden.shiftOperand_put (x y : Reg) : shiftOperand x y (h.put s) = h.put (shiftOperand x y s) := by
  unfold shiftOperand
  rw [put_params]
  cases s.params.shiftSource with
  | vx => rfl
  | vy => cases h <;> rfl

/-- The window check does not see a hidden element. -/
theorem Hidden.withWindow_put (i : Instr) (len : Nat) {k k' : Result} (hk : k' = onNext h.put k) :
    withWindow i len (h.put s) k' = onNext h.put (withWindow i len s k) := by
  subst hk
  unfold withWindow
  rw [put_I, put_pc0]
  cases firstOutOfRange s.I.toNat len <;> rfl

/-- The key check does not see a hidden element. -/
theorem Hidden.withKey_put (i : Instr) (x : Reg) {k k' : Fin 16 → Result}
    (hk : ∀ key, k' key = onNext h.put (k key)) :
    withKey i x (h.put s) k' = onNext h.put (withKey i x s k) := by
  unfold withKey
  rw [put_reg, put_pc0]
  cases keyIndex (s.reg x) with
  | none => rfl
  | some key => exact hk key

/-- Noninterference of Execute: an instruction that does not use the element runs alike whatever its value is, and
leaves it. -/
theorem Hidden.exec_put {i : Instr} (hi : h.usedBy i = false) : exec i (h.put s) = onNext h.put (exec i s) := by
  cases i
  case ret =>
    by_cases h0 : s.sp.val = 0
    · rw [exec_ret_of_empty h0, exec_ret_of_empty (by rw [put_sp]; exact h0), put_pc0]; rfl
    · rw [exec_ret_of_pos h0, exec_ret_of_pos (by rw [put_sp]; exact h0)]
      cases h with
      | S entries => cases hi
      | K keys => rfl
      | ST b => rfl
  case call nnn =>
    by_cases hlt : s.sp.val < 16
    · rw [exec_call_of_lt nnn hlt, exec_call_of_lt nnn (by rw [put_sp]; exact hlt)]
      cases h with
      | S entries => cases hi
      | K keys => rfl
      | ST b => rfl
    · rw [exec_call_of_full nnn hlt, exec_call_of_full nnn (by rw [put_sp]; exact hlt), put_pc0]; rfl
  case skp x | sknp x => cases h with
    | S entries => exact withKey_put _ s _ x fun _ => congrArg Host.Outcome.next (skipIf_put _ s _)
    | K keys => cases hi
    | ST b => exact withKey_put _ s _ x fun _ => congrArg Host.Outcome.next (skipIf_put _ s _)
  case ldVxK x => cases h with
    | S entries => simp only [exec, execLdVxK, put]; split <;> rfl
    | K keys => cases hi
    | ST b => simp only [exec, execLdVxK, put]; split <;> rfl
  case ldStVx x => cases h with
    | S entries => rfl
    | K keys => rfl
    | ST b => cases hi
  case drw | ldBVx | ldMemIVx | ldVxMemI => exact withWindow_put h s _ _ (by cases h <;> rfl)
  case seVxKk | sneVxKk | seVxVy | sneVxVy =>
    simp only [exec, execSeVxKk, execSneVxKk, execSeVxVy, execSneVxVy, put_reg, skipIf_put, onNext]
  case shr | shl => simp only [exec, execShr, execShl, shiftOperand_put]; cases h <;> rfl
  -- The other instructions make plain updates of elements that are not hidden.
  all_goals cases h <;> rfl

/-! ### Noninterference of a step -/

/-- What the timer tick makes of the value. -/
def Hidden.tick : Hidden → Hidden
  | .S entries => .S entries
  | .K keys => .K keys
  | .ST b => .ST (Machine.tick b)

theorem Hidden.timerTick_put : timerTick (h.put s) = h.tick.put (timerTick s) := by cases h <;> rfl

theorem Hidden.record_put (r : Report) : (h.put s).record r = h.put (s.record r) := by cases h <;> rfl

theorem Hidden.runs_put {i : Instr} (hr : s.runs i) : (h.put s).runs i := by
  obtain ⟨w, hf, hd⟩ := hr
  exact ⟨w, (fetch_congr (put_pc h s) (put_M h s)).trans hf, by rw [put_params]; exact hd⟩

/-- A step that runs no instruction using the element goes alike whatever its value is, and at most ticks it. -/
theorem Hidden.step_put (hun : ∀ i, s.runs i → h.usedBy i = false) :
    step (h.put s) = onNext h.tick.put (step s) := by
  rcases step_cases s with ⟨hpc, hs⟩ | ⟨w, hf, hd, hs⟩ | ⟨i, hr, hs⟩
  · rw [hs, step_of_outOfRange (by rw [put_pc]; exact hpc), put_pc]; rfl
  · have hf' : fetch (h.put s) = .word w := (fetch_congr (put_pc h s) (put_M h s)).trans hf
    rw [hs, step_of_unknown hf' (by rw [put_params]; exact hd), advance_put, timerTick_put, record_put, put_pc]; rfl
  · rw [hs, step_of_runs (runs_put h s hr), advance_put, exec_put h (advance s) (hun i hr)]
    cases exec i (advance s) with
    | next t => exact congrArg Host.Outcome.next (timerTick_put h t)
    | fault e => rfl
    | refused r => rfl

end

/-! ### Stack entries at and above `sp` -/

/-- Two outcomes that differ only in stack entries at or above `sp` (R28, D31). -/
inductive SameButFreeEntries : Result → Result → Prop where
  | next {t : State} {T : Vector Word 16} (hT : ∀ j : Fin 16, j.val < t.sp.val → T[j] = t.S[j]) :
    SameButFreeEntries (.next t) (.next { t with S := T })
  | fault (e : Fault) : SameButFreeEntries (.fault e) (.fault e)
  | refused (r : Refusal) : SameButFreeEntries (.refused r) (.refused r)

theorem SameButFreeEntries.afterExec {r r' : Result} (h : SameButFreeEntries r r') :
    SameButFreeEntries (afterExec r) (afterExec r') := by
  cases h with
  | @next t T hT => exact .next (t := timerTick t) hT
  | fault e => exact .fault e
  | refused r => exact .refused r

theorem SameButFreeEntries.of_next {t : State} {r : Result} (h : SameButFreeEntries (.next t) r) :
    ∃ T : Vector Word 16, r = .next { t with S := T } ∧ ∀ j : Fin 16, j.val < t.sp.val → T[j] = t.S[j] := by
  cases h with
  | next hT => exact ⟨_, rfl, hT⟩

theorem SameButFreeEntries.of_fault {e : Fault} {r : Result} (h : SameButFreeEntries (.fault e) r) : r = .fault e := by
  cases h; rfl

section
variable {s : State} {S' : Vector Word 16} (hfree : ∀ j : Fin 16, j.val < s.sp.val → S'[j] = s.S[j])
include hfree

/-- A call fills the first free entry with the same word in both states. -/
theorem exec_call_freeEntries (nnn : Addr12) :
    SameButFreeEntries (exec (.call nnn) s) (exec (.call nnn) { s with S := S' }) := by
  by_cases hlt : s.sp.val < 16
  · rw [exec_call_of_lt nnn hlt, exec_call_of_lt (s := { s with S := S' }) nnn hlt]
    refine .next (t := (s.push s.pc hlt).setPc (zext16 nnn)) (T := S'.set s.sp.val s.pc hlt) fun j hj => ?_
    simp only [State.setPc_sp, State.push_sp, State.setPc_S, State.push_S, Fin.getElem_fin,
      Vector.getElem_set] at hj ⊢
    split
    · rfl
    · exact hfree j (by omega)
  · rw [exec_call_of_full nnn hlt, exec_call_of_full (s := { s with S := S' }) nnn hlt]
    exact .fault _

/-- A return reads the top entry, which is below `sp`. -/
theorem exec_ret_freeEntries : SameButFreeEntries (exec .ret s) (exec .ret { s with S := S' }) := by
  by_cases h0 : s.sp.val = 0
  · rw [exec_ret_of_empty h0, exec_ret_of_empty (s := { s with S := S' }) h0]
    exact .fault _
  · have htop : S'[s.sp.val - 1] = s.S[s.sp.val - 1] := hfree ⟨s.sp.val - 1, by omega⟩ (by show _ - 1 < _; omega)
    rw [exec_ret_of_pos h0, exec_ret_of_pos (s := { s with S := S' }) h0]
    simp only [htop]
    refine .next (t := (s.setSp _).setPc _) fun j hj => hfree j ?_
    simp only [State.setPc_sp, State.setSp_sp] at hj
    omega

/-- Noninterference of a step: the free entries are neither read nor copied. -/
theorem step_freeEntries : SameButFreeEntries (step s) (step { s with S := S' }) := by
  by_cases hun : ∀ i, s.runs i → (Hidden.S S').usedBy i = false
  · have hput : step { s with S := S' } = onNext (Hidden.S S').put (step s) := (Hidden.S S').step_put s hun
    rw [hput]
    cases hs : step s with
    | next t =>
      have hcall : ∀ nnn, ¬ s.runs (.call nnn) := fun nnn hr => nomatch (hun _ hr : true = false)
      have hret : ¬ s.runs .ret := fun hr => nomatch (hun _ hr : true = false)
      refine .next fun j hj => ?_
      rw [step_keeps_S hs hcall]
      exact hfree j (step_keeps_sp hs hcall hret ▸ hj)
    | fault e => exact .fault e
    | refused r => exact .refused r
  · push Not at hun
    obtain ⟨i, hr, hu⟩ := hun
    have hr' : State.runs { s with S := S' } i := (Hidden.S S').runs_put s hr
    rw [step_of_runs hr, step_of_runs hr']
    refine SameButFreeEntries.afterExec ?_
    cases i
    case call nnn => exact exec_call_freeEntries (s := advance s) hfree nnn
    case ret => exact exec_ret_freeEntries (s := advance s) hfree
    all_goals exact absurd rfl hu

end

/-- Settles O26, by noninterference of a step with the free entries. -/
theorem freeStackEntriesAreNotObservable : Obligations.FreeStackEntriesAreNotObservable := by
  intro s S' hfree
  have hstep := step_freeEntries hfree
  exact ⟨fun t ht => (ht ▸ hstep).of_next, fun e he => (he ▸ hstep).of_fault⟩

/-! ### Who writes what -/

/-- Settles O19: Execute writes none of the three, and an unknown word puts one report in front. -/
theorem noStepWritesKeypadOrParams : Obligations.NoStepWritesKeypadOrParams := by
  intro s t h
  rcases step_next_cases h with ⟨w, -, -, rfl⟩ | ⟨i, u, -, he, rfl⟩
  · exact ⟨rfl, rfl, [_], rfl⟩
  · have hw := exec_writes he
    exact ⟨hw.K, hw.params, [], hw.reports⟩

/-- Settles O20, by the frame of Execute. -/
theorem onlyClsAndDrwWriteTheFramebuffer : Obligations.OnlyClsAndDrwWriteTheFramebuffer := by
  intro s t h hcls hdrw
  refine step_keeps State.FB rfl (fun _ => rfl) (fun _ _ => rfl) (fun i u hr he => (exec_writes he).FB ?_ ?_) h
  · rintro rfl; exact hcls hr
  · rintro x y n rfl; exact hdrw x y n hr

/-- Settles O23, by the frame of Execute. -/
theorem onlyThreeInstructionsWriteI : Obligations.OnlyThreeInstructionsWriteI := by
  intro s t h hld hadd hfont
  refine step_keeps State.I rfl (fun _ => rfl) (fun _ _ => rfl) (fun i u hr he => (exec_writes he).I ?_ ?_ ?_) h
  · rintro nnn rfl; exact hld nnn hr
  · rintro x rfl; exact hadd x hr
  · rintro x rfl; exact hfont x hr

/-- A step that completes a call raises `sp` by one and writes the entry at the old `sp` alone. -/
theorem step_call_stack {s t : State} {nnn : Addr12} (hr : s.runs (.call nnn)) (h : step s = .next t) :
    t.sp.val = s.sp.val + 1 ∧ ∀ j : Fin 16, j.val ≠ s.sp.val → t.S[j] = s.S[j] := by
  obtain ⟨u, he, rfl⟩ := step_next_of_runs hr h
  obtain ⟨hlt, rfl⟩ := exec_call_next he
  exact ⟨rfl, fun j hj => Vector.getElem_set_ne hlt j.isLt (Ne.symm hj)⟩

/-- A step that completes a return lowers `sp` by one. -/
theorem step_ret_sp {s t : State} (hr : s.runs .ret) (h : step s = .next t) : t.sp.val + 1 = s.sp.val := by
  obtain ⟨u, he, rfl⟩ := step_next_of_runs hr h
  obtain ⟨h0, rfl⟩ := exec_ret_next he
  exact Nat.sub_add_cancel (Nat.pos_of_ne_zero h0)

/-- Settles O22, from what a call, a return and any other instruction do to the stack. -/
theorem onlyCallAndReturnTouchTheStack : Obligations.OnlyCallAndReturnTouchTheStack := by
  intro s t h
  refine ⟨fun j hj => ?_, ?_, fun hr => step_ret_sp hr h, step_keeps_sp h⟩
  · by_cases hcall : ∃ nnn, s.runs (.call nnn)
    · obtain ⟨nnn, hr⟩ := hcall
      exact (step_call_stack hr h).2 j (hj.resolve_left fun hn => hn nnn hr)
    · rw [step_keeps_S h (not_exists.mp hcall)]
  · rintro ⟨nnn, hr⟩
    exact (step_call_stack hr h).1

/-- A register that differs is among those that the frame names. -/
theorem RegsKeptBut.mem_of_ne {xs : List Reg} {s t : State} (h : RegsKeptBut xs s t) {j : Reg}
    (hj : t.reg j ≠ s.reg j) : j ∈ xs := by
  by_contra hm
  exact hj (h j hm)

theorem State.setV_regsKept (s : State) (x : Reg) (b : Byte) : RegsKeptBut [x] s (s.setV x b) :=
  (regsKeptBut_refl [x] s).setV List.mem_cons_self b

/-- What `VF` and then `V[x]` written leaves, whatever was written to `V[x]` before. -/
theorem RegsKeptBut.setVF_setV {s s1 : State} {x : Reg} (h : RegsKeptBut [x] s s1) (f b : Byte) :
    RegsKeptBut [x, VF] s ((s1.setVF f).setV x b) := by
  have h1 : RegsKeptBut [x, VF] s s1 := fun j hj => h j fun hm => hj (by simp [List.mem_singleton.mp hm])
  exact (h1.setV (by simp) f).setV (by simp) b

theorem shiftOperand_regsKept (x y : Reg) (s : State) : RegsKeptBut [x] s (shiftOperand x y s) := by
  intro j hj
  rw [shiftOperand_reg, if_neg fun e => hj (List.mem_singleton.mpr e)]

theorem skipIf_reg (c : Bool) (s : State) (j : Reg) : (skipIf c s).reg j = s.reg j := by
  rw [skipIf_eq, State.setPc_reg]

/-- Settles O24, from the registers that each instruction's updates keep. -/
theorem registersWrittenOnlyAsListed : Obligations.RegistersWrittenOnlyAsListed := by
  intro i s t h j hj
  have single {x : Reg} (hk : RegsKeptBut [x] s t) : j = x := List.mem_singleton.mp (hk.mem_of_ne hj)
  have flagged {x : Reg} (hk : RegsKeptBut [x, VF] s t) : j = x ∨ j = VF := by simpa using hk.mem_of_ne hj
  cases i
  case ldVxKk | addVxKk | ldVxDt | ldVxVy | orVxVy | andVxVy | xorVxVy =>
    cases h; exact single (s.setV_regsKept _ _)
  case rnd x kk => cases h; exact single (s.countDraw.setV_regsKept x _)
  case addVxVy | sub | subn => cases h; exact flagged ((regsKeptBut_refl _ s).setVF_setV _ _)
  case shr x y | shl x y => cases h; exact flagged ((shiftOperand_regsKept x y s).setVF_setV _ _)
  case drw => obtain ⟨-, rfl⟩ := withWindow_next h; exact single ((s.setFB _).setV_regsKept VF _)
  case ldVxMemI x =>
    obtain ⟨-, rfl⟩ := withWindow_next h
    by_contra hlt
    exact hj (by rw [State.setRegs_reg, loadedRegs_get, if_neg hlt]; rfl)
  case ldVxK x =>
    simp only [exec, execLdVxK] at h
    split at h <;> cases h
    next k hk => exact ⟨single (s.setV_regsKept x _), k, (lowestKey_eq_some hk).1⟩
    next => exact absurd (by rw [rewind_eq, State.setPc_reg]) hj
  case ret => obtain ⟨_, rfl⟩ := exec_ret_next h; exact hj rfl
  case call => obtain ⟨_, rfl⟩ := exec_call_next h; exact hj rfl
  case skp | sknp => obtain ⟨_, rfl⟩ := withKey_next h; exact hj (skipIf_reg _ s j)
  case ldBVx | ldMemIVx => obtain ⟨-, rfl⟩ := withWindow_next h; exact hj rfl
  case seVxKk | sneVxKk | seVxVy | sneVxVy => cases h; exact hj (skipIf_reg _ s j)
  case cls | jp | ldINnn | jpV0Nnn | ldDtVx | ldStVx | addIVx | ldFVx => cases h; exact hj rfl

/-- Settles O27: the step runs alike with other keys, and leaves them. -/
theorem onlyKeyInstructionsReadTheKeypad : Obligations.OnlyKeyInstructionsReadTheKeypad := by
  intro s t keys hskp hsknp hwait h
  have hun : ∀ i, s.runs i → (Hidden.K keys).usedBy i = false := by
    intro i hr
    cases i
    case skp x => exact absurd hr (hskp x)
    case sknp x => exact absurd hr (hsknp x)
    case ldVxK x => exact absurd hr (hwait x)
    all_goals rfl
  have hput := (Hidden.K keys).step_put s hun
  rw [h] at hput
  exact hput

/-! ### The readout -/

/-- Settles O54: `y * 64 + x` has quotient `y` and remainder `x` by 64. -/
theorem readoutIsRowMajor : Obligations.ReadoutIsRowMajor := by
  intro s y x
  have hy : (y.val * 64 + x.val) / 64 = y.val := by omega
  have hx : (y.val * 64 + x.val) % 64 = x.val := by omega
  simp only [readFramebuffer, Vector.getElem_ofFn, hy, hx, Fin.eta]

end Sys2Proof.Machine

/-!
The statements about memory (20_memory.md): the invariant that every step keeps, the bounds check, and which
instructions write memory.
-/

namespace Sys2Proof.Machine

/-! ### The invariant -/

/-- The two stores write only inside the window that was checked; no other instruction writes memory. -/
theorem exec_keeps_wf {i : Instr} {s t : State} (h : exec i s = .next t) (hwf : s.M.wf = true) : t.M.wf = true := by
  cases i
  case ldBVx x =>
    obtain ⟨hlen, rfl⟩ := withWindow_next h
    exact Memory.wf_writeBytes hwf (by rw [bcdDigits_length]; omega)
  case ldMemIVx x =>
    obtain ⟨hlen, rfl⟩ := withWindow_next h
    exact Memory.wf_writeBytes hwf (by rw [regBytes_length]; omega)
  all_goals
    rw [(exec_writes h).M nofun nofun]
    exact hwf

/-- Execute keeps the invariant: it stores inside the memory and writes neither the parameters nor the record. -/
theorem exec_keeps_inv {i : Instr} {s t : State} (h : exec i s = .next t) (hinv : s.Inv) : t.Inv := by
  obtain ⟨hwf, hreports⟩ := hinv
  have hw := exec_writes h
  refine ⟨exec_keeps_wf h hwf, ?_⟩
  rw [hw.reports, hw.params]
  exact hreports

/-- The invariant does not speak of `pc`. -/
theorem advance_inv_iff {s : State} : (advance s).Inv ↔ s.Inv := Iff.rfl

/-- The invariant does not speak of the timers. -/
theorem timerTick_inv_iff {s : State} : (timerTick s).Inv ↔ s.Inv := Iff.rfl

/-- One more report keeps the invariant exactly when it is of a word that decodes to `Unknown`. -/
theorem record_inv_iff {s : State} {r : Report} :
    (s.record r).Inv ↔ s.Inv ∧ decodeWord s.params.ignoreLowNibble r.opcode = none := by
  simp only [State.Inv, State.record_M, State.record_params, State.record_reports, List.forall_mem_cons]
  tauto

/-- Settles O3: an unknown word's cycle records a word that decodes to `Unknown`, and any other completed cycle is
an Execute between the Advance step and the tick. -/
theorem invariantKeptByEveryStep : Obligations.InvariantKeptByEveryStep := by
  intro s t hinv h
  have hadvance : (advance s).Inv := advance_inv_iff.mpr hinv
  rcases step_next_cases h with ⟨w, -, hd, rfl⟩ | ⟨i, u, -, he, rfl⟩
  · exact record_inv_iff.mpr ⟨timerTick_inv_iff.mpr hadvance, hd⟩
  · exact timerTick_inv_iff.mpr (exec_keeps_inv he hadvance)

/-! ### The bounds check -/

/-- Settles O4: the lowest byte of the window outside the memory is the higher of its start and 0x1000. -/
theorem boundsCheckNamesFirstBadAddress : Obligations.BoundsCheckNamesFirstBadAddress := by
  intro a len
  refine ⟨?_, fun b => ?_⟩
  · rw [firstOutOfRange_eq_none]
    constructor
    · intro h b hab hb
      omega
    · intro h
      have hlast := h (a + len - 1)
      omega
  · rw [firstOutOfRange_eq_some]
    constructor
    · rintro ⟨hlen, hout, rfl⟩
      exact ⟨by omega, fun c hac _ hc => by omega⟩
    · rintro ⟨⟨hab, hb, hout⟩, hleast⟩
      have hmax := hleast (max a 4096)
      omega

/-! ### Who writes memory -/

/-- Settles O21, by the frame of Execute. -/
theorem onlyStoresWriteMemory : Obligations.OnlyStoresWriteMemory := by
  intro s t h hbcd hstore a
  refine step_keeps (·.M.read a) rfl (fun _ => rfl) (fun _ _ => rfl)
    (fun i u hr he => congrArg (Memory.read · a) ((exec_writes he).M ?_ ?_)) h
  · rintro x rfl; exact hbcd x hr
  · rintro x rfl; exact hstore x hr

end Sys2Proof.Machine

/-!
The statements about decoding, encoding and the cycle (30_encoding.md): the two directions of the round trip, the
words that are unknown, the rows of the opcode map, the fetch, and what a step makes of Execute.
-/

namespace Sys2Proof

/-! ### A word and its fields -/

theorem wordOfBytes_bytes (w : Word) : wordOfBytes (w.extractLsb' 8 8) (w.extractLsb' 0 8) = w := by
  have := w.isLt
  apply BitVec.eq_of_toNat_eq
  rw [wordOfBytes_toNat]
  simp only [BitVec.extractLsb'_toNat, Nat.shiftRight_eq_div_pow]
  omega

theorem packNNN_fields (w : Word) : packNNN (fieldA w) (fieldNNN w) = w := by
  apply BitVec.eq_of_toNat_eq
  rw [packNNN_toNat, fieldA_toNat, fieldNNN_toNat]; omega

theorem packXKK_fields (w : Word) : packXKK (fieldA w) (fieldX w) (fieldKK w) = w := by
  apply BitVec.eq_of_toNat_eq
  rw [packXKK_toNat, fieldA_toNat, fieldX_val, fieldKK_toNat]; omega

theorem packXYN_fields (w : Word) : packXYN (fieldA w) (fieldX w) (fieldY w) (fieldN w) = w := by
  apply BitVec.eq_of_toNat_eq
  rw [packXYN_toNat, fieldA_toNat, fieldX_val, fieldY_val, fieldN_val]; omega

theorem packNNN_of_fieldA {w : Word} {a : BitVec 4} (ha : (fieldA w).toNat = a.toNat) :
    packNNN a (fieldNNN w) = w := by
  rw [← BitVec.eq_of_toNat_eq ha, packNNN_fields]

/-- A word with the family and the low byte of an encoding is the encoding with its `x` field. -/
theorem packXKK_of_fields {w : Word} {a : BitVec 4} {kk : Byte} (ha : (fieldA w).toNat = a.toNat)
    (hkk : (fieldKK w).toNat = kk.toNat) : packXKK a (fieldX w) kk = w := by
  rw [← BitVec.eq_of_toNat_eq ha, ← BitVec.eq_of_toNat_eq hkk, packXKK_fields]

/-- A word with the family and the low nibble of an encoding is the encoding with its `x` and `y` fields. -/
theorem packXYN_of_fields {w : Word} {a : BitVec 4} {n : Fin 16} (ha : (fieldA w).toNat = a.toNat)
    (hn : (fieldN w).val = n.val) : packXYN a (fieldX w) (fieldY w) n = w := by
  rw [← BitVec.eq_of_toNat_eq ha, ← Fin.ext hn, packXYN_fields]

theorem fieldA_le_15 (w : Word) : (fieldA w).toNat ≤ 15 := Nat.le_of_lt_succ (fieldA w).isLt

/-! ### Decoding an encoding -/

/-- The decoder finds in a packed word the family and the operands that were packed, by the instruction's format. -/
theorem decodeWord_encode (ignoreLowNibble : Bool) (i : Instr) : decodeWord ignoreLowNibble (encode i) = some i := by
  cases i
  case cls | ret => rfl
  case jp | call | ldINnn | jpV0Nnn =>
    simp [encode, decodeWord, fieldA_packNNN, fieldNNN_packNNN]
  case seVxKk | sneVxKk | ldVxKk | addVxKk | rnd =>
    simp [encode, decodeWord, fieldA_packXKK, fieldX_packXKK, fieldKK_packXKK]
  case seVxVy | sneVxVy | drw =>
    simp [encode, decodeWord, fieldA_packXYN, fieldX_packXYN, fieldY_packXYN, fieldN_packXYN]
  case ldVxVy | orVxVy | andVxVy | xorVxVy | addVxVy | sub | shr | subn | shl =>
    simp [encode, decodeWord, decodeFamily8, fieldA_packXYN, fieldX_packXYN, fieldY_packXYN, fieldN_packXYN]
  case skp | sknp =>
    simp [encode, decodeWord, decodeFamilyE, fieldA_packXKK, fieldX_packXKK, fieldKK_packXKK]
  case ldVxDt | ldVxK | ldDtVx | ldStVx | addIVx | ldFVx | ldBVx | ldMemIVx | ldVxMemI =>
    simp [encode, decodeWord, decodeFamilyF, fieldA_packXKK, fieldX_packXKK, fieldKK_packXKK]

theorem decodeBytes_encodeBytes (ignoreLowNibble : Bool) (i : Instr) (rest : List Byte) :
    decodeBytes ignoreLowNibble (encodeBytes i ++ rest) = .ok i := by
  simp only [encodeBytes, List.cons_append, decodeBytes, wordOfBytes_bytes, decodeWord_encode]

/-- Settles O5, by the round trip of the word and of its two bytes. -/
theorem decodeOfEncodeIsTheInstruction : Obligations.DecodeOfEncodeIsTheInstruction :=
  fun ignoreLowNibble i rest => ⟨decodeWord_encode ignoreLowNibble i, decodeBytes_encodeBytes ignoreLowNibble i rest⟩

/-- Settles O6: each format is the sum of its fields at their places. -/
theorem encodingsAreThoseOfTheOpcodeMap : Obligations.EncodingsAreThoseOfTheOpcodeMap := by
  intro i
  cases i
  case cls | ret => rfl
  case jp | call | ldINnn | jpV0Nnn => exact packNNN_toNat _ _
  case seVxKk | sneVxKk | ldVxKk | addVxKk | rnd | skp | sknp | ldVxDt | ldVxK | ldDtVx | ldStVx | addIVx | ldFVx
      | ldBVx | ldMemIVx | ldVxMemI =>
    simp only [encode, packXKK_toNat, BitVec.reduceToNat]; omega
  case seVxVy | sneVxVy | ldVxVy | orVxVy | andVxVy | xorVxVy | addVxVy | sub | shr | subn | shl | drw =>
    simp only [encode, packXYN_toNat, BitVec.reduceToNat, Fin.coe_ofNat_eq_mod]; omega

/-! ### Encoding what was decoded -/

theorem encode_of_decodeFamily8 {w : Word} {i : Instr} (ha : (fieldA w).toNat = 0x8)
    (h : decodeFamily8 w = some i) : encode i = w := by
  unfold decodeFamily8 at h
  split at h <;> cases h <;> exact packXYN_of_fields ha ‹_›

theorem encode_of_decodeFamilyE {w : Word} {i : Instr} (ha : (fieldA w).toNat = 0xE)
    (h : decodeFamilyE w = some i) : encode i = w := by
  unfold decodeFamilyE at h
  split at h <;> cases h <;> exact packXKK_of_fields ha ‹_›

theorem encode_of_decodeFamilyF {w : Word} {i : Instr} (ha : (fieldA w).toNat = 0xF)
    (h : decodeFamilyF w = some i) : encode i = w := by
  unfold decodeFamilyF at h
  split at h <;> cases h <;> exact packXKK_of_fields ha ‹_›

/-- By default a decoded word has the fixed bits of its instruction, and its operands are the word's own fields. -/
theorem encode_of_decodeWord {w : Word} {i : Instr} (h : decodeWord false w = some i) : encode i = w := by
  unfold decodeWord at h
  split at h
  case h_1 =>
    split at h
    next hw => cases h; exact hw.symm
    next =>
      split at h <;> cases h
      exact Eq.symm ‹_›
  case h_2 ha | h_3 ha | h_11 ha | h_12 ha => cases h; exact packNNN_of_fieldA ha
  case h_4 ha | h_5 ha | h_7 ha | h_8 ha | h_13 ha => cases h; exact packXKK_of_fields ha rfl
  case h_6 ha | h_10 ha =>
    split at h <;> cases h
    next hn => exact packXYN_of_fields ha (congrArg Fin.val (hn.resolve_right Bool.false_ne_true))
  case h_9 ha => exact encode_of_decodeFamily8 ha h
  case h_14 ha => cases h; exact packXYN_of_fields ha rfl
  case h_15 ha => exact encode_of_decodeFamilyE ha h
  case h_16 =>
    have ha : (fieldA w).toNat = 0xF := by have := fieldA_le_15 w; grind
    exact encode_of_decodeFamilyF ha h

/-- Settles O7, from each family of the decoder. -/
theorem encodeOfDecodedWordIsTheWord : Obligations.EncodeOfDecodedWordIsTheWord := fun _ _ => encode_of_decodeWord

/-! ### Unknown words -/

theorem decodeFamily8_eq_none {w : Word} :
    decodeFamily8 w = none ↔ 8 ≤ w.toNat % 16 ∧ w.toNat % 16 ≤ 13 ∨ w.toNat % 16 = 15 := by
  unfold decodeFamily8
  rw [fieldN_val]
  split <;> grind

theorem decodeFamilyE_eq_none {w : Word} :
    decodeFamilyE w = none ↔ w.toNat % 256 ≠ 0x9E ∧ w.toNat % 256 ≠ 0xA1 := by
  unfold decodeFamilyE
  rw [fieldKK_toNat]
  split <;> simp_all

theorem decodeFamilyF_eq_none {w : Word} :
    decodeFamilyF w = none ↔ w.toNat % 256 ∉ [0x07, 0x0A, 0x15, 0x18, 0x1E, 0x29, 0x33, 0x55, 0x65] := by
  unfold decodeFamilyF
  rw [fieldKK_toNat]
  split <;> simp_all

/-- A word is unknown only in a family whose decoding looks further than the family nibble. -/
theorem decodeWord_eq_none {w : Word} :
    decodeWord false w = none ↔
      ((fieldA w).toNat = 0 ∧ w ≠ 0x00E0 ∧ w ≠ 0x00EE) ∨ ((fieldA w).toNat = 5 ∧ fieldN w ≠ 0) ∨
      ((fieldA w).toNat = 8 ∧ decodeFamily8 w = none) ∨ ((fieldA w).toNat = 9 ∧ fieldN w ≠ 0) ∨
      ((fieldA w).toNat = 14 ∧ decodeFamilyE w = none) ∨ ((fieldA w).toNat = 15 ∧ decodeFamilyF w = none) := by
  unfold decodeWord
  split
  case h_1 ha => split_ifs <;> simp_all
  case h_16 =>
    have ha : (fieldA w).toNat = 15 := by have := fieldA_le_15 w; grind
    simp [ha]
  all_goals simp [*]

/-- Settles O8: the unknown words of each family, with the fields as arithmetic on the word. -/
theorem unknownWordsAreThoseOfTheTable : Obligations.UnknownWordsAreThoseOfTheTable := by
  intro w family low kk
  have hlow : fieldN w ≠ 0 ↔ low ≠ 0 := by rw [Ne, Fin.ext_iff, fieldN_val]; rfl
  rw [decodeWord_eq_none, decodeFamily8_eq_none, decodeFamilyE_eq_none, decodeFamilyF_eq_none, fieldA_toNat, hlow]

/-! ### `IGNORE_5_9_LOW_NIBBLE` -/

/-- Outside families 5 and 9 the decoder does not look at the setting. -/
theorem decodeWord_setting_irrelevant {w : Word} (h5 : w.toNat / 4096 ≠ 5) (h9 : w.toNat / 4096 ≠ 9) (b c : Bool) :
    decodeWord b w = decodeWord c w := by
  rw [← fieldA_toNat] at h5 h9
  unfold decodeWord
  split
  case h_6 ha => exact absurd ha h5
  case h_10 ha => exact absurd ha h9
  all_goals rfl

theorem decodeWord_relaxed_family5 {w : Word} (h : w.toNat / 4096 = 5) :
    decodeWord true w = some (.seVxVy (fieldX w) (fieldY w)) := by
  simp [decodeWord, fieldA_toNat, h]

theorem decodeWord_relaxed_family9 {w : Word} (h : w.toNat / 4096 = 9) :
    decodeWord true w = some (.sneVxVy (fieldX w) (fieldY w)) := by
  simp [decodeWord, fieldA_toNat, h]

/-- Settles O9: of the 16 families only 5 and 9 look at the setting. -/
theorem relaxedDecodeIgnoresTheLowNibble : Obligations.RelaxedDecodeIgnoresTheLowNibble := by
  refine ⟨rfl, fun w => ⟨fun h => ?_, fun h => ?_, fun h5 h9 => decodeWord_setting_irrelevant h5 h9 true false⟩⟩
  · exact ⟨fieldX w, fieldY w, decodeWord_relaxed_family5 h, fieldX_val w, fieldY_val w⟩
  · exact ⟨fieldX w, fieldY w, decodeWord_relaxed_family9 h, fieldX_val w, fieldY_val w⟩

/-! ### The masks of the opcode map -/

/-- A mask acts on each nibble of the word. -/
theorem and_packXYN (w : Word) (a : BitVec 4) (x y n : Fin 16) :
    w &&& packXYN a x y n = (fieldA w &&& a) ++ (nibble (fieldX w) &&& nibble x) ++
      (nibble (fieldY w) &&& nibble y) ++ (nibble (fieldN w) &&& nibble n) := by
  conv_lhs => rw [← packXYN_fields w]
  unfold packXYN
  rw [← BitVec.and_append, ← BitVec.and_append, ← BitVec.and_append]

theorem and_15 (a : BitVec 4) : a &&& 0xF = a := BitVec.and_allOnes

theorem nibble_and_nibble_15 (x : Fin 16) : nibble x &&& nibble 15 = nibble x := and_15 (nibble x)

theorem nibble_and_nibble_0 (x : Fin 16) : nibble x &&& nibble 0 = nibble 0 := BitVec.and_zero

theorem and_F000 (w : Word) : w &&& 0xF000 = packXYN (fieldA w) 0 0 0 :=
  (and_packXYN w 0xF 0 0 0).trans (by simp only [and_15, nibble_and_nibble_0, packXYN])

theorem and_F00F (w : Word) : w &&& 0xF00F = packXYN (fieldA w) 0 0 (fieldN w) :=
  (and_packXYN w 0xF 0 0 15).trans (by simp only [and_15, nibble_and_nibble_0, nibble_and_nibble_15, packXYN])

theorem and_F0FF (w : Word) : w &&& 0xF0FF = packXYN (fieldA w) 0 (fieldY w) (fieldN w) :=
  (and_packXYN w 0xF 0 15 15).trans (by simp only [and_15, nibble_and_nibble_0, nibble_and_nibble_15, packXYN])

/-- The rows that fix the family alone. -/
theorem matches_F000 {p w : Word} :
    (Row.mk p 0xF000).matches w = true ↔ (fieldA w).toNat * 4096 = p.toNat := by
  rw [Row.matches, beq_iff_eq, and_F000, ← BitVec.toNat_inj, packXYN_toNat]
  simp

/-- The rows that fix the family and the low nibble. -/
theorem matches_F00F {p w : Word} :
    (Row.mk p 0xF00F).matches w = true ↔ (fieldA w).toNat * 4096 + (fieldN w).val = p.toNat := by
  rw [Row.matches, beq_iff_eq, and_F00F, ← BitVec.toNat_inj, packXYN_toNat]
  simp

/-- The rows that fix the family and the low byte. -/
theorem matches_F0FF {p w : Word} :
    (Row.mk p 0xF0FF).matches w = true ↔ (fieldA w).toNat * 4096 + (fieldKK w).toNat = p.toNat := by
  have hkk : (fieldKK w).toNat = (fieldY w).val * 16 + (fieldN w).val := by
    rw [fieldKK_toNat, fieldY_val, fieldN_val]; omega
  rw [Row.matches, beq_iff_eq, and_F0FF, ← BitVec.toNat_inj, packXYN_toNat, hkk, Nat.add_assoc]
  simp

theorem fieldA_of_matches_F000 {p w : Word} (h : (Row.mk p 0xF000).matches w = true) :
    (fieldA w).toNat = p.toNat / 4096 := by
  have hp := matches_F000.mp h
  omega

theorem fields_of_matches_F00F {p w : Word} (h : (Row.mk p 0xF00F).matches w = true) :
    (fieldA w).toNat = p.toNat / 4096 ∧ (fieldN w).val = p.toNat % 4096 := by
  have hp := matches_F00F.mp h
  omega

theorem fields_of_matches_F0FF {p w : Word} (h : (Row.mk p 0xF0FF).matches w = true) :
    (fieldA w).toNat = p.toNat / 4096 ∧ (fieldKK w).toNat = p.toNat % 4096 := by
  have hp := matches_F0FF.mp h
  omega

/-! ### The rows of the opcode map -/

theorem row_mem_rows (i : Instr) : i.row ∈ rows := by
  cases i <;> (simp only [Instr.row]; decide)

theorem rows_nodup : rows.Nodup := by decide

theorem row_matches_encode (i : Instr) : i.row.matches (encode i) = true := by
  cases i
  case cls | ret => rfl
  case jp | call | ldINnn | jpV0Nnn => exact matches_F000.mpr (by rw [encode, fieldA_packNNN]; rfl)
  case seVxKk | sneVxKk | ldVxKk | addVxKk | rnd => exact matches_F000.mpr (by rw [encode, fieldA_packXKK]; rfl)
  case drw => exact matches_F000.mpr (by rw [encode, fieldA_packXYN]; rfl)
  case seVxVy | sneVxVy | ldVxVy | orVxVy | andVxVy | xorVxVy | addVxVy | sub | shr | subn | shl =>
    exact matches_F00F.mpr (by rw [encode, fieldA_packXYN, fieldN_packXYN]; rfl)
  case skp | sknp | ldVxDt | ldVxK | ldDtVx | ldStVx | addIVx | ldFVx | ldBVx | ldMemIVx | ldVxMemI =>
    exact matches_F0FF.mpr (by rw [encode, fieldA_packXKK, fieldKK_packXKK]; rfl)

/-- A word in the row of an instruction decodes, to an instruction of that row. -/
theorem decodeWord_row_of_matches {i : Instr} {w : Word} (h : i.row.matches w = true) :
    (decodeWord false w).map Instr.row = some i.row := by
  cases i
  case cls | ret =>
    have hw : w = _ := BitVec.and_allOnes.symm.trans (beq_iff_eq.mp h)
    rw [hw]; rfl
  case jp | call | ldINnn | jpV0Nnn | seVxKk | sneVxKk | ldVxKk | addVxKk | rnd | drw =>
    have ha := fieldA_of_matches_F000 h
    simp [decodeWord, ha, Instr.row]
  case seVxVy | sneVxVy =>
    obtain ⟨ha, hn⟩ := fields_of_matches_F00F h
    simp [decodeWord, ha, Fin.ext_iff, hn, Instr.row]
  case ldVxVy | orVxVy | andVxVy | xorVxVy | addVxVy | sub | shr | subn | shl =>
    obtain ⟨ha, hn⟩ := fields_of_matches_F00F h
    simp [decodeWord, decodeFamily8, ha, hn, Instr.row]
  case skp | sknp =>
    obtain ⟨ha, hkk⟩ := fields_of_matches_F0FF h
    simp [decodeWord, decodeFamilyE, ha, hkk, Instr.row]
  case ldVxDt | ldVxK | ldDtVx | ldStVx | addIVx | ldFVx | ldBVx | ldMemIVx | ldVxMemI =>
    obtain ⟨ha, hkk⟩ := fields_of_matches_F0FF h
    simp [decodeWord, decodeFamilyF, ha, hkk, Instr.row]

/-- A word matches at most one row of the map: that of the instruction it decodes to. -/
theorem decodeWord_row_of_mem_rows {r : Row} {w : Word} (hr : r ∈ rows) (h : r.matches w = true) :
    (decodeWord false w).map Instr.row = some r := by
  obtain ⟨i, -, rfl⟩ := List.mem_map.mp hr
  exact decodeWord_row_of_matches h

/-- Settles O10: a word matches no row but that of the instruction it decodes to. -/
theorem opcodeMapRowsAreDisjointAndComplete : Obligations.OpcodeMapRowsAreDisjointAndComplete := by
  refine ⟨rfl, fun i j hi hj w hmi hmj => ?_, fun w i h => ⟨row_mem_rows i, ?_⟩, fun w h r hr => ?_⟩
  · have hrow : some rows[i] = some rows[j] :=
      (decodeWord_row_of_mem_rows (List.getElem_mem hi) hmi).symm.trans
        (decodeWord_row_of_mem_rows (List.getElem_mem hj) hmj)
    exact rows_nodup.getElem_inj_iff.mp (Option.some.inj hrow)
  · rw [← encode_of_decodeWord h]
    exact row_matches_encode i
  · rw [Bool.eq_false_iff]
    intro hm
    have hrow := decodeWord_row_of_mem_rows hr hm
    rw [h] at hrow
    cases hrow

/-- Settles O11, by running the decoder. -/
theorem sampleWordsDecode : Obligations.SampleWordsDecode :=
  ⟨rfl, rfl, rfl, rfl, rfl, rfl, rfl, rfl, rfl, rfl, rfl, rfl⟩

end Sys2Proof

namespace Sys2Proof.Machine

/-! ### Fetch and step -/

theorem fetch_of_le {s : State} (h : s.pc.toNat ≤ 0xFFE) :
    fetch s = .word (wordOfBytes (s.M.read s.pc.toNat) (s.M.read (s.pc.toNat + 1))) := by
  rcases fetch_cases s with ⟨-, hf⟩ | ⟨hout, -⟩
  · exact hf
  · omega

/-- Settles O14: the first address outside the memory is the higher of `pc` and 0x1000. -/
theorem fetchIsBoundsChecked : Obligations.FetchIsBoundsChecked := by
  intro s
  refine ⟨fun h => ⟨_, fetch_of_le h, wordOfBytes_toNat _ _⟩, fun h => ?_, fun h => ?_⟩
  · rw [step_of_outOfRange (by omega), h]; rfl
  · rw [step_of_outOfRange (by omega), Nat.max_eq_left (by omega)]

/-- Settles O12: the model's Advance and tick are the sum and the decrements of the statement. -/
theorem stepRunsTheDecodedInstruction : Obligations.StepRunsTheDecodedInstruction := by
  intro s i hpc hd
  have hadvance : advance s = { s with pc := s.pc + 2 } := advance_eq s
  rw [step_of_runs ⟨_, fetch_of_le hpc, hd⟩, hadvance]
  cases exec i { s with pc := s.pc + 2 } with
  | next t => simp only [afterExec, timerTick_eq, tick_eq]
  | fault e => rfl
  | refused r => rfl

/-! ### Nothing is refused -/

theorem withWindow_ne_refused (i : Instr) (len : Nat) (s t : State) (r : Refusal) :
    withWindow i len s (.next t) ≠ .refused r := by
  rcases withWindow_cases i len s (.next t) with ⟨-, -, e⟩ | ⟨-, e⟩ <;> rw [e] <;> nofun

theorem withKey_ne_refused (i : Instr) (x : Reg) (s : State) (f : Fin 16 → State) (r : Refusal) :
    withKey i x s (fun k => .next (f k)) ≠ .refused r := by
  rcases withKey_cases i x s (fun k => .next (f k)) with ⟨-, e⟩ | ⟨_, e⟩ <;> rw [e] <;> nofun

theorem exec_ne_refused (i : Instr) (s : State) (r : Refusal) : exec i s ≠ .refused r := by
  cases i
  case ret =>
    by_cases h0 : s.sp.val = 0
    · rw [exec_ret_of_empty h0]; nofun
    · rw [exec_ret_of_pos h0]; nofun
  case call nnn =>
    by_cases hlt : s.sp.val < 16
    · rw [exec_call_of_lt nnn hlt]; nofun
    · rw [exec_call_of_full nnn hlt]; nofun
  case drw | ldBVx | ldMemIVx | ldVxMemI => exact withWindow_ne_refused _ _ s _ r
  case skp x | sknp x => exact withKey_ne_refused _ x s _ r
  case ldVxK x =>
    simp only [exec, execLdVxK]
    split <;> nofun
  -- The other instructions complete from every state.
  all_goals nofun

theorem afterExec_ne_refused {x : Result} {r : Refusal} (h : x ≠ .refused r) : afterExec x ≠ .refused r := by
  cases x with
  | next t => nofun
  | fault e => nofun
  | refused r' => exact h

/-- Settles O18: a step stops at the fetch, completes an unknown word, or is an Execute. -/
theorem nothingIsRefused : Obligations.NothingIsRefused := by
  refine ⟨exec_ne_refused, fun s r => ?_⟩
  rcases step_cases s with ⟨-, hs⟩ | ⟨w, -, -, hs⟩ | ⟨i, -, hs⟩ <;> rw [hs]
  · nofun
  · nofun
  · exact afterExec_ne_refused (exec_ne_refused i (advance s) r)

end Sys2Proof.Machine

/-!
The statements about control transfer (40_control.md): the jumps, the call and the return, and the four skips on
registers.
-/

namespace Sys2Proof.Machine

/-! ### Moves of `pc` -/

theorem State.setPc_onlyChanges (s : State) (a : Word) : OnlyChanges [.pc] s (s.setPc a) :=
  (onlyChanges_refl [.pc] s).setPc List.mem_cons_self a

/-- The word at `pc` depends on `pc`, memory and the decode setting alone. -/
theorem runs_congr {s t : State} {i : Instr} (hpc : t.pc = s.pc) (hM : t.M = s.M) (hparams : t.params = s.params)
    (hr : s.runs i) : t.runs i := by
  obtain ⟨w, hf, hd⟩ := hr
  exact ⟨w, (fetch_congr hpc hM).trans hf, hparams ▸ hd⟩

/-- The cycle of an instruction that stops in Execute reports its error and leaves the state as it was (R215). -/
theorem cycle_of_runs_of_fault {s : State} {i : Instr} {e : Fault} (hr : s.runs i)
    (he : exec i (advance s) = .fault e) : cycle s = (s, .aborted e) := by
  obtain ⟨w, hf, hd⟩ := hr
  simp only [cycle, hf, hd, he, finish]

/-! ### Jumps -/

/-- A jump to its own address is a full cycle that changes the timers alone. -/
theorem step_selfJump {s : State} {nnn : Addr12} (hr : s.runs (.jp nnn)) (hself : nnn.toNat = s.pc.toNat) :
    step s = .next (timerTick s) := by
  have hpc : zext16 nnn = s.pc := BitVec.eq_of_toNat_eq ((zext16_toNat nnn).trans hself)
  have hexec : exec (.jp nnn) (advance s) = .next s := by
    show Host.Outcome.next ((advance s).setPc (zext16 nnn)) = _
    rw [hpc]; rfl
  rw [step_of_runs hr, hexec]; rfl

/-- Settles O28: the repeat of a jump to itself leaves what the next fetch and decode read. -/
theorem jumpSetsPc : Obligations.JumpSetsPc := by
  intro nnn s
  refine ⟨encodingsAreThoseOfTheOpcodeMap (.jp nnn), ⟨_, rfl, zext16_toNat nnn, s.setPc_onlyChanges _⟩,
    fun hr hself => ?_⟩
  exact ⟨timerTick s, step_selfJump hr hself, rfl, tick_toNat s.DT, tick_toNat s.ST, runs_congr rfl rfl rfl hr⟩

/-- Settles O29: a byte and a 12-bit address sum to less than 65536, so the target is not cut. -/
theorem computedJumpAddsV0 : Obligations.ComputedJumpAddsV0 := by
  intro nnn s
  have hpc : (trunc16 ((s.reg 0).toNat + nnn.toNat)).toNat = (s.reg 0).toNat + nnn.toNat := by
    have := (s.reg 0).isLt
    have := nnn.isLt
    rw [trunc16_toNat]; omega
  refine ⟨encodingsAreThoseOfTheOpcodeMap (.jpV0Nnn nnn), _, rfl, hpc, s.setPc_onlyChanges _, fun hout => ?_⟩
  rw [step_of_outOfRange (by rw [State.setPc_pc, hpc]; exact hout), State.setPc_pc, hpc]

/-! ### The call and the return -/

/-- Settles O30, from the two branches of a call. -/
theorem callPushesAdvancedPc : Obligations.CallPushesAdvancedPc := by
  intro nnn s
  refine ⟨fun hlt => ?_, fun hfull => ?_, fun hfull hr => ?_⟩
  · have hframe : OnlyChanges [.S, .sp, .pc] s ((s.push s.pc hlt).setPc (zext16 nnn)) :=
      ((onlyChanges_refl _ s).push (by decide) (by decide) s.pc hlt).setPc (by decide) _
    exact ⟨_, exec_call_of_lt nnn hlt, Vector.getElem_set_self hlt, rfl, zext16_toNat nnn,
      fun j hj => Vector.getElem_set_ne hlt j.isLt hj.symm, hframe⟩
  · rw [exec_call_of_full nnn (by omega), pc0_eq]
  · have hsp : ¬ (advance s).sp.val < 16 := by rw [advance_eq, State.setPc_sp]; omega
    exact cycle_of_runs_of_fault hr (by rw [exec_call_of_full nnn hsp, pc0_advance])

/-- A return with `j` the top entry of the stack. -/
theorem exec_ret_of_top {s : State} {j : Fin 16} (h : s.sp.val = j.val + 1) :
    exec .ret s = .next ((s.setSp j.castSucc).setPc s.S[j]) := by
  have htop : s.sp.val - 1 = j.val := by omega
  rw [exec_ret_of_pos (by omega)]
  simp only [htop]; rfl

/-- Settles O31, from the two branches of a return. -/
theorem returnPopsTheTopEntry : Obligations.ReturnPopsTheTopEntry := by
  intro s
  refine ⟨fun j htop => ?_, fun hempty => ?_, fun hempty hr => ?_⟩
  · have hframe : OnlyChanges [.sp, .pc] s ((s.setSp j.castSucc).setPc s.S[j]) :=
      ((onlyChanges_refl _ s).setSp (by decide) _).setPc (by decide) _
    exact ⟨_, exec_ret_of_top htop, rfl, rfl, hframe⟩
  · rw [exec_ret_of_empty hempty, pc0_eq]; rfl
  · have hsp : (advance s).sp.val = 0 := hempty
    exact cycle_of_runs_of_fault hr (by rw [exec_ret_of_empty hsp, pc0_advance]; rfl)

/-! ### Skips -/

section
variable {c : Bool} (s : State)

theorem skipIf_onlyChanges : OnlyChanges [.pc] s (skipIf c s) := by
  rw [skipIf_eq]
  exact s.setPc_onlyChanges _

theorem skipIf_pc_of_true (hc : c = true) : (skipIf c s).pc = s.pc + 2 := by
  rw [skipIf_eq, State.setPc_pc, if_pos hc]

theorem skipIf_pc_of_false (hc : c = false) : (skipIf c s).pc = s.pc := by
  subst hc; rfl

/-- A skip by the instruction at 0xFFC goes to 0x1000, where nothing can be fetched (R91, D7). -/
theorem step_skipIf_past_end (hc : c = true) (hpc : s.pc = 0xFFE) :
    step (skipIf c s) = .fault (.memoryBounds 0x1000 0x1000 none) := by
  have hend : (skipIf c s).pc = 0x1000 := by rw [skipIf_pc_of_true s hc, hpc]; rfl
  rw [step_of_outOfRange (by rw [hend]; decide), hend]; rfl

end

/-- Settles O33: the two instructions are skips on opposite conditions. -/
theorem skipsOnImmediate : Obligations.SkipsOnImmediate := by
  intro x kk s
  refine ⟨⟨?_, _, rfl, skipIf_onlyChanges s, fun heq => ?_, fun hne => ?_, fun heq => ?_⟩,
    ⟨?_, _, rfl, skipIf_onlyChanges s, fun hne => ?_, fun heq => ?_, fun hne => ?_⟩⟩
  · exact encodingsAreThoseOfTheOpcodeMap (.seVxKk x kk)
  · exact skipIf_pc_of_true s (beq_iff_eq.mpr heq)
  · exact skipIf_pc_of_false s (beq_eq_false_iff_ne.mpr hne)
  · exact step_skipIf_past_end s (beq_iff_eq.mpr heq)
  · exact encodingsAreThoseOfTheOpcodeMap (.sneVxKk x kk)
  · exact skipIf_pc_of_true s (bne_iff_ne.mpr hne)
  · exact skipIf_pc_of_false s (bne_eq_false_iff_eq.mpr heq)
  · exact step_skipIf_past_end s (bne_iff_ne.mpr hne)

/-- Settles O34: the two instructions are skips on opposite conditions. -/
theorem skipsOnRegisters : Obligations.SkipsOnRegisters := by
  intro x y s
  refine ⟨⟨_, rfl, skipIf_onlyChanges s, fun heq => ?_, fun hne => ?_⟩,
    ⟨_, rfl, skipIf_onlyChanges s, fun hne => ?_, fun heq => ?_⟩⟩
  · exact skipIf_pc_of_true s (beq_iff_eq.mpr heq)
  · exact skipIf_pc_of_false s (beq_eq_false_iff_ne.mpr hne)
  · exact skipIf_pc_of_true s (bne_iff_ne.mpr hne)
  · exact skipIf_pc_of_false s (bne_eq_false_iff_eq.mpr heq)

end Sys2Proof.Machine

/-!
The statements about loads and arithmetic (41_alu.md): the register loads, the operations that write no flag, the flag
writers with their statement order, the two shifts, and the random byte.
-/

namespace Sys2Proof.Machine

/-! ### The values that arithmetic and the flags cut to a byte (R120) -/

theorem add8_toNat (a b : Byte) : (add8 a b).toNat = (a.toNat + b.toNat) % 256 := trunc8_toNat _

theorem sub8_toNat (a b : Byte) : (sub8 a b).toNat = (a.toNat + 256 - b.toNat) % 256 := trunc8_toNat _

theorem shl8_toNat (a : Byte) : (shl8 a).toNat = a.toNat * 2 % 256 := trunc8_toNat _

theorem shr8_toNat (a : Byte) : (shr8 a).toNat = a.toNat / 2 := by
  have := a.isLt
  rw [shr8, trunc8_toNat]; omega

theorem sub8_self (a : Byte) : sub8 a a = 0 := by rw [sub8_eq, BitVec.sub_self]; rfl

theorem bool01_decide (p : Prop) [Decidable p] : bool01 (decide p) = if p then 1 else 0 := by simp [bool01]

theorem lowBitFlag_toNat (a : Byte) : (lowBitFlag a).toNat = a.toNat % 2 := by
  rw [lowBitFlag, trunc8_toNat]; omega

theorem highBitFlag_toNat (a : Byte) : (highBitFlag a).toNat = a.toNat / 128 := by
  have := a.isLt
  rw [highBitFlag, trunc8_toNat]; omega

/-! ### Updates of one register, and of `VF` before it -/

section
variable (s : State) (x : Reg) (f b : Byte)

theorem State.setV_reg_self : (s.setV x b).reg x = b := by rw [State.setV_reg, if_pos rfl]

theorem State.setV_onlyChanges : OnlyChanges [.V] s (s.setV x b) :=
  (onlyChanges_refl [.V] s).setV List.mem_cons_self x b

theorem State.setVF_setV_reg_VF {x : Reg} (hx : x ≠ VF) : ((s.setVF f).setV x b).reg VF = f := by
  rw [State.setV_reg, if_neg hx.symm, State.setV_reg_self]

theorem State.setVF_setV_regsKept : RegsKeptBut [x, VF] s ((s.setVF f).setV x b) :=
  (regsKeptBut_refl [x] s).setVF_setV f b

theorem State.setVF_setV_onlyChanges : OnlyChanges [.V] s ((s.setVF f).setV x b) :=
  (s.setV_onlyChanges VF f).setV List.mem_cons_self x b

end

/-! ### Loads and the operations without a flag -/

/-- Settles O35: each load is one register update. -/
theorem loadsSetTheRegister : Obligations.LoadsSetTheRegister := by
  intro x y kk s
  refine ⟨encodingsAreThoseOfTheOpcodeMap (.ldVxKk x kk), encodingsAreThoseOfTheOpcodeMap (.ldVxVy x y), ?_, ?_⟩
  · exact ⟨_, rfl, s.setV_reg_self x _, s.setV_regsKept x _, s.setV_onlyChanges x _⟩
  · exact ⟨_, rfl, s.setV_reg_self x _, s.setV_regsKept x _, s.setV_onlyChanges x _⟩

/-- Settles O36: the sum is written by one register update, so no flag is. -/
theorem addImmediateWrapsWithoutFlag : Obligations.AddImmediateWrapsWithoutFlag := by
  intro x kk s
  refine ⟨encodingsAreThoseOfTheOpcodeMap (.addVxKk x kk), _, rfl, ?_, s.setV_regsKept x _, s.setV_onlyChanges x _⟩
  rw [State.setV_reg_self, add8_toNat]

/-- Settles O37: the three operations are one register update each, with the value that Lean's bitwise operations have
bit by bit. -/
theorem logicalOperationsSetNoFlag : Obligations.LogicalOperationsSetNoFlag := by
  intro x y s
  refine ⟨⟨_, rfl, fun b => ?_, s.setV_regsKept x _, s.setV_onlyChanges x _⟩,
    ⟨_, rfl, fun b => ?_, s.setV_regsKept x _, s.setV_onlyChanges x _⟩,
    ⟨_, rfl, fun b => ?_, s.setV_regsKept x _, s.setV_onlyChanges x _⟩⟩
  · rw [State.setV_reg_self, BitVec.getLsbD_or]
  · rw [State.setV_reg_self, BitVec.getLsbD_and]
  · rw [State.setV_reg_self, BitVec.getLsbD_xor]

/-! ### The carry -/

/-- Settles O38: the sum is read before `VF` is written, and `V[x]` is written last. -/
theorem addSetsCarry : Obligations.AddSetsCarry := by
  intro x y s
  refine ⟨encodingsAreThoseOfTheOpcodeMap (.addVxVy x y), _, rfl, ?_, fun hx => ?_, s.setVF_setV_regsKept x _ _,
    s.setVF_setV_onlyChanges x _ _⟩
  · rw [State.setV_reg_self, add8_toNat]
  · rw [s.setVF_setV_reg_VF _ _ hx, carryFlag, bool01_decide]

/-! ### The two subtractions -/

/-- What `8XY5` and `8XY7` leave (R129, R131): `VF` takes the no-borrow flag of `V[a] - V[b]`, and then `V[x]` the
difference of the registers as they are by then. -/
def State.subtract (s : State) (x a b : Reg) : State :=
  let s1 := s.setVF (noBorrowFlag (s.reg a) (s.reg b))
  s1.setV x (sub8 (s1.reg a) (s1.reg b))

theorem exec_sub (x y : Reg) (s : State) : exec (.sub x y) s = .next (s.subtract x x y) := rfl

theorem exec_subn (x y : Reg) (s : State) : exec (.subn x y) s = .next (s.subtract x y x) := rfl

section
variable (s : State) (x a b : Reg)

theorem State.subtract_regsKept : RegsKeptBut [x, VF] s (s.subtract x a b) := s.setVF_setV_regsKept x _ _

theorem State.subtract_onlyChanges : OnlyChanges [.V] s (s.subtract x a b) := s.setVF_setV_onlyChanges x _ _

theorem State.subtract_reg_VF {x : Reg} (hx : x ≠ VF) :
    (s.subtract x a b).reg VF = if (s.reg a).toNat ≥ (s.reg b).toNat then 1 else 0 := by
  rw [State.subtract, s.setVF_setV_reg_VF _ _ hx, noBorrowFlag, bool01_decide]

/-- An operand that is `VF` has the flag just written, and any other its value before (R121, D12). -/
theorem State.subtract_reg {f : Byte} (hf : noBorrowFlag (s.reg a) (s.reg b) = f) :
    (s.subtract x a b).reg x = sub8 (if a = VF then f else s.reg a) (if b = VF then f else s.reg b) := by
  simp only [State.subtract, State.setV_reg_self, State.setV_reg, hf]

end

/-- Settles O39: by which of the operands is `VF`. -/
theorem subSetsNoBorrow : Obligations.SubSetsNoBorrow := by
  intro x y s f
  have hf : noBorrowFlag (s.reg x) (s.reg y) = f := bool01_decide _
  have hd := s.subtract_reg x x y hf
  refine ⟨_, exec_sub x y s, s.subtract_reg_VF x y, fun hx hy => ?_, fun hx hy => ?_, fun hx hy => ?_, fun hx hy => ?_,
    s.subtract_regsKept x x y, s.subtract_onlyChanges x x y⟩
  · rw [hd, if_neg hx, if_neg hy, sub8_toNat]
  · rw [hd, if_neg hx, if_pos hy, sub8_toNat]
  · rw [← hx, hd, if_pos hx, if_neg hy, sub8_toNat]
  · rw [← hx, hd, if_pos hx, if_pos hy, sub8_self]

/-- Settles O40: by which of the operands is `VF`. -/
theorem subnSetsNoBorrow : Obligations.SubnSetsNoBorrow := by
  intro x y s f
  have hf : noBorrowFlag (s.reg y) (s.reg x) = f := bool01_decide _
  have hd := s.subtract_reg x y x hf
  refine ⟨_, exec_subn x y s, s.subtract_reg_VF y x, fun hx hy => ?_, fun hx hy => ?_, fun hx hy => ?_, fun hx hy => ?_,
    s.subtract_regsKept x y x, s.subtract_onlyChanges x y x⟩
  · rw [hd, if_neg hx, if_neg hy, sub8_toNat]
  · rw [hd, if_neg hx, if_pos hy, sub8_toNat]
  · rw [← hx, hd, if_pos hx, if_neg hy, sub8_toNat]
  · rw [← hx, hd, if_pos hx, if_pos hy, sub8_self]

/-! ### The two shifts -/

/-- What `8XY6` and `8XYE` leave (R130, R132): `V[x]` takes the operand, `VF` the bit `out` of it, and then `V[x]` its
own value by then, shifted. -/
def State.shift (s : State) (out shifted : Byte → Byte) (x y : Reg) : State :=
  let s1 := shiftOperand x y s
  let s2 := s1.setVF (out (s1.reg x))
  s2.setV x (shifted (s2.reg x))

theorem exec_shr (x y : Reg) (s : State) : exec (.shr x y) s = .next (s.shift lowBitFlag shr8 x y) := rfl

theorem exec_shl (x y : Reg) (s : State) : exec (.shl x y) s = .next (s.shift highBitFlag shl8 x y) := rfl

theorem shiftOperand_reg_self (x y : Reg) (s : State) :
    (shiftOperand x y s).reg x = if s.params.shiftSource = .vy then s.reg y else s.reg x := by
  rw [shiftOperand_reg, if_pos rfl]

theorem shiftOperand_onlyChanges (x y : Reg) (s : State) : OnlyChanges [.V] s (shiftOperand x y s) := by
  obtain ⟨v, hv⟩ := shiftOperand_eq x y s
  rw [hv]
  exact (onlyChanges_refl [.V] s).setRegs List.mem_cons_self v

section
variable (s : State) (out shifted : Byte → Byte) (x y : Reg)

theorem State.shift_regsKept : RegsKeptBut [x, VF] s (s.shift out shifted x y) :=
  (shiftOperand_regsKept x y s).setVF_setV _ _

theorem State.shift_onlyChanges : OnlyChanges [.V] s (s.shift out shifted x y) :=
  ((shiftOperand_onlyChanges x y s).setV List.mem_cons_self VF _).setV List.mem_cons_self x _

variable {s x y} {v : Byte} (hv : (shiftOperand x y s).reg x = v)
include hv

theorem State.shift_reg (hx : x ≠ VF) : (s.shift out shifted x y).reg x = shifted v := by
  rw [State.shift, State.setV_reg_self, State.setV_reg, if_neg hx, hv]

theorem State.shift_reg_VF (hx : x ≠ VF) : (s.shift out shifted x y).reg VF = out v := by
  rw [State.shift, State.setVF_setV_reg_VF _ _ _ hx, hv]

/-- With `x = 15` it is the flag just written that is shifted (D12). -/
theorem State.shift_reg_VF_of_eq (hx : x = VF) : (s.shift out shifted x y).reg VF = shifted (out v) := by
  subst hx
  rw [State.shift, State.setV_reg_self, State.setV_reg_self, hv]

end

/-- Settles O41: a bit shifted right is 0. -/
theorem shiftRightMovesOutBitZero : Obligations.ShiftRightMovesOutBitZero := by
  intro x y s v
  have hv : (shiftOperand x y s).reg x = v := shiftOperand_reg_self x y s
  refine ⟨_, exec_shr x y s, fun hx => ⟨?_, ?_⟩, fun hx => ?_, s.shift_regsKept _ _ x y, s.shift_onlyChanges _ _ x y⟩
  · rw [State.shift_reg _ _ hv hx, shr8_toNat]
  · rw [State.shift_reg_VF _ _ hv hx, lowBitFlag_toNat]
  · apply BitVec.eq_of_toNat_eq
    rw [State.shift_reg_VF_of_eq _ _ hv hx, shr8_toNat, lowBitFlag_toNat]
    exact Nat.div_eq_of_lt (Nat.mod_lt _ Nat.zero_lt_two)

/-- Settles O42: a bit shifted left is at most 2, so it is not cut. -/
theorem shiftLeftMovesOutBitSeven : Obligations.ShiftLeftMovesOutBitSeven := by
  intro x y s v
  have hv : (shiftOperand x y s).reg x = v := shiftOperand_reg_self x y s
  refine ⟨_, exec_shl x y s, fun hx => ⟨?_, ?_⟩, fun hx => ?_, s.shift_regsKept _ _ x y, s.shift_onlyChanges _ _ x y⟩
  · rw [State.shift_reg _ _ hv hx, shl8_toNat]
  · rw [State.shift_reg_VF _ _ hv hx, highBitFlag_toNat]
  · have := v.isLt
    rw [State.shift_reg_VF_of_eq _ _ hv hx, shl8_toNat, highBitFlag_toNat]
    omega

/-! ### The random byte -/

/-- Settles O43: one draw and one register update, with a byte that is clear where the mask is. -/
theorem randomByteIsMasked : Obligations.RandomByteIsMasked := by
  intro x kk s
  have hframe : OnlyChanges [.V, .draws] s (s.countDraw.setV x (Config.randomByte s.draws &&& kk)) :=
    ((onlyChanges_refl _ s).countDraw (by decide)).setV (by decide) x _
  refine ⟨_, rfl, s.countDraw.setV_reg_self x _, fun b hb => ?_, rfl, s.countDraw.setV_regsKept x _, hframe⟩
  rw [State.setV_reg_self, BitVec.getLsbD_and, hb, Bool.and_false]

end Sys2Proof.Machine

/-!
The statements about the index register and memory (42_index_memory.md): the loads of `I`, and the three transfers
between registers and memory, each behind its window check.
-/

namespace Sys2Proof.Machine

/-! ### The index register -/

theorem State.setI_onlyChanges (s : State) (a : Word) : OnlyChanges [.I] s (s.setI a) :=
  (onlyChanges_refl [.I] s).setI List.mem_cons_self a

/-- Settles O44: each instruction is one update of `I`, so no flag is written. -/
theorem indexLoadAndAdd : Obligations.IndexLoadAndAdd := by
  intro nnn x s
  refine ⟨encodingsAreThoseOfTheOpcodeMap (.ldINnn nnn), ⟨_, rfl, zext16_toNat nnn, s.setI_onlyChanges _⟩,
    ⟨_, rfl, ?_, s.setI_onlyChanges _⟩⟩
  rw [State.setI_I, trunc16_toNat]

/-- Settles O45: the highest glyph address is below 65536, so it is not cut. -/
theorem glyphAddressUsesTheFullByte : Obligations.GlyphAddressUsesTheFullByte :=
  fun x s => ⟨_, rfl, glyphAddress_toNat (s.reg x), s.setI_onlyChanges _⟩

/-! ### The window -/

/-- A window whose last byte is above 0xFFF stops its instruction (R150); the error names the instruction's own
address. -/
theorem withWindow_of_last_gt (i : Instr) {last : Nat} {s : State} (k : Result) (h : 0xFFF < s.I.toNat + last) :
    withWindow i (last + 1) s k = .fault (.memoryBounds (max s.I.toNat 0x1000) (s.pc - 2) (some (encode i))) := by
  rw [withWindow_of_gt i k (by omega) (by omega), pc0_eq]

/-! ### The two stores -/

theorem State.setM_onlyChanges (s : State) (m : Memory) : OnlyChanges [.M] s (s.setM m) :=
  (onlyChanges_refl [.M] s).setM List.mem_cons_self m

section
variable {m : Memory} {a : Nat} {bytes : List Byte} (hwf : m.wf = true) (hfit : a + bytes.length ≤ 4096)
include hwf hfit

theorem Memory.read_writeBytes_inside {k : Nat} (hk : k < bytes.length) :
    (m.writeBytes a bytes).read (a + k) = bytes.getD k 0 := by
  rw [read_writeBytes hwf hfit, if_pos (by omega), Nat.add_sub_cancel_left]

theorem Memory.read_writeBytes_outside {b : Nat} (hb : b < a ∨ a + bytes.length ≤ b) :
    (m.writeBytes a bytes).read b = m.read b := by
  rw [read_writeBytes hwf hfit, if_neg (by omega)]

end

/-- A byte has at most three decimal digits, and none is cut. -/
theorem bcdDigits_toNat (v : Byte) :
    ((bcdDigits v).getD 0 0).toNat = v.toNat / 100 ∧ ((bcdDigits v).getD 1 0).toNat = v.toNat / 10 % 10 ∧
      ((bcdDigits v).getD 2 0).toNat = v.toNat % 10 := by
  have hv := v.isLt
  refine ⟨(trunc8_toNat _).trans ?_, (trunc8_toNat _).trans ?_, (trunc8_toNat _).trans ?_⟩ <;> omega

/-- Settles O46: the three bytes stored are the digits. -/
theorem bcdStoresThreeDigits : Obligations.BcdStoresThreeDigits := by
  intro x s hwf
  refine ⟨fun hin => ?_, withWindow_of_last_gt _ _⟩
  have hfit : s.I.toNat + (bcdDigits (s.reg x)).length ≤ 4096 := by rw [bcdDigits_length]; omega
  have hread {k : Nat} (hk : k < 3) := Memory.read_writeBytes_inside hwf hfit hk
  obtain ⟨hundreds, tens, ones⟩ := bcdDigits_toNat (s.reg x)
  refine ⟨_, withWindow_of_le _ _ (by omega), ?_, ?_, ?_, fun a ha => ?_, s.setM_onlyChanges _⟩
  · exact (congrArg _ (hread (k := 0) (by decide))).trans hundreds
  · exact (congrArg _ (hread (k := 1) (by decide))).trans tens
  · exact (congrArg _ (hread (k := 2) (by decide))).trans ones
  · exact Memory.read_writeBytes_outside hwf hfit (by rw [bcdDigits_length]; omega)

/-- Settles O47: the bytes stored are the registers, in their order. -/
theorem storeRegistersWritesTheWindow : Obligations.StoreRegistersWritesTheWindow := by
  intro x s hwf
  refine ⟨fun hin => ?_, withWindow_of_last_gt _ _⟩
  have hlen := regBytes_length s.V x
  have hfit : s.I.toNat + (regBytes s.V x).length ≤ 4096 := by omega
  refine ⟨_, withWindow_of_le _ _ (by omega), fun j hj => ?_, fun a ha => ?_, s.setM_onlyChanges _⟩
  · exact (Memory.read_writeBytes_inside hwf hfit (by omega)).trans (regBytes_getD s x j hj)
  · exact Memory.read_writeBytes_outside hwf hfit (by omega)

/-! ### The load -/

theorem State.setRegs_onlyChanges (s : State) (v : Vector Byte 16) : OnlyChanges [.V] s (s.setRegs v) :=
  (onlyChanges_refl [.V] s).setRegs List.mem_cons_self v

/-- Settles O48: a register up to `x` is loaded, and any other keeps its value. -/
theorem loadRegistersReadsTheWindow : Obligations.LoadRegistersReadsTheWindow := by
  intro x s
  refine ⟨fun hin => ?_, withWindow_of_last_gt _ _⟩
  refine ⟨_, withWindow_of_le _ _ (by omega), fun j hj => ?_, fun j hj => ?_, s.setRegs_onlyChanges _⟩
  · rw [State.setRegs_reg, loadedRegs_get, if_pos hj]
  · rw [State.setRegs_reg, loadedRegs_get, if_neg (by omega)]; rfl

end Sys2Proof.Machine

/-!
The statements about the framebuffer (43_display.md): the clear and its readout, the draw of a sprite inside the memory,
and the draw of one that leaves it.
-/

namespace Sys2Proof.Machine

/-! ### The clear -/

theorem State.setFB_onlyChanges (s : State) (fb : Framebuffer) : OnlyChanges [.FB] s (s.setFB fb) :=
  (onlyChanges_refl [.FB] s).setFB List.mem_cons_self fb

/-- With every pixel 0 the readout has one value (R33, D29). -/
theorem readFramebuffer_of_pixels_off {s : State} (hoff : ∀ y x, s.FB.pixel y x = false) (k : Fin 2048) :
    (readFramebuffer s)[k] = s.params.pixelOff := by
  simp only [readFramebuffer, Fin.getElem_fin, Vector.getElem_ofFn, hoff, Bool.false_eq_true, if_false]

/-- Settles O50: the clear is one update of the framebuffer, from every state. -/
theorem clearScreenTurnsEveryPixelOff : Obligations.ClearScreenTurnsEveryPixelOff := by
  intro s
  have hoff : ∀ y x, (s.setFB Framebuffer.clear).FB.pixel y x = false := Framebuffer.pixel_clear
  exact ⟨_, rfl, hoff, s.setFB_onlyChanges _, readFramebuffer_of_pixels_off hoff⟩

/-! ### The draw -/

/-- The framebuffer and the collision that the scan of `DXYN` ends with (R172). -/
def State.drawn (s : State) (x y : Reg) (n : Fin 16) : Canvas :=
  Canvas.plotSprite { fb := s.FB, collided := false } s.params.drawEdge ((s.reg x).toNat % 64) ((s.reg y).toNat % 32)
    n.val s.M s.I.toNat

section
variable (s : State) (x y : Reg) (n : Fin 16)

theorem exec_drw_of_le (h : n.val = 0 ∨ s.I.toNat + n.val ≤ 4096) :
    exec (.drw x y n) s = .next ((s.setFB (s.drawn x y n).fb).setVF (bool01 (s.drawn x y n).collided)) :=
  withWindow_of_le _ _ h

theorem exec_drw_of_gt (h0 : 0 < n.val) (h : 4096 < s.I.toNat + n.val) :
    exec (.drw x y n) s = .fault (.memoryBounds (max s.I.toNat 4096) s.pc0 (some (encode (.drw x y n)))) :=
  withWindow_of_gt _ _ h0 h

/-- The scan of a sprite, by the pixels under its set bits: no pixel is under two of them, so each is toggled once, and
each collides exactly where it was set before the draw. -/
theorem State.drawn_spec :
    (∀ py px, s.drawHits x y n py px → (s.drawn x y n).fb.pixel py px = !s.FB.pixel py px) ∧
    (∀ py px, ¬ s.drawHits x y n py px → (s.drawn x y n).fb.pixel py px = s.FB.pixel py px) ∧
    ((s.drawn x y n).collided = true ↔ ∃ py px, s.drawHits x y n py px ∧ s.FB.pixel py px = true) := by
  have hscan := Canvas.foldl_plot _ (spriteTargets_pairwise s.params.drawEdge ((s.reg x).toNat % 64)
    ((s.reg y).toNat % 32) n.isLt s.M s.I.toNat) { fb := s.FB, collided := false }
  simp only [← Canvas.plotSprite_eq, mem_spriteTargets, Bool.false_eq_true, false_or] at hscan
  exact hscan

theorem State.setFB_setVF_onlyChanges (fb : Framebuffer) (b : Byte) :
    OnlyChanges [.V, .FB] s ((s.setFB fb).setVF b) :=
  ((onlyChanges_refl _ s).setFB (by decide) fb).setV (by decide) VF b

end

/-- Settles O51: the sprite inside the memory is scanned, and `VF` ends as the collision of the scan. -/
theorem drawXorsTheSpriteAndReportsCollision : Obligations.DrawXorsTheSpriteAndReportsCollision := by
  intro x y n s hin
  obtain ⟨htoggled, hkept, hcollided⟩ := s.drawn_spec x y n
  refine ⟨_, exec_drw_of_le s x y n (by omega), htoggled, hkept, fun hset => ?_, fun hclear => ?_,
    (s.setFB _).setV_regsKept VF _, s.setFB_setVF_onlyChanges _ _⟩
  · rw [State.setV_reg_self, hcollided.mpr hset]; rfl
  · have hnone : (s.drawn x y n).collided = false := by
      refine Bool.eq_false_iff.mpr fun hc => ?_
      obtain ⟨py, px, hhit, hset⟩ := hcollided.mp hc
      exact Bool.false_ne_true ((hclear py px hhit).symm.trans hset)
    rw [State.setV_reg_self, hnone]; rfl

/-- Settles O52: the window check comes before the scan, and the cycle of an instruction that stops has no effect. -/
theorem drawPastMemoryStops : Obligations.DrawPastMemoryStops := by
  intro x y n s h0 hout
  refine ⟨?_, fun hr => cycle_of_runs_of_fault hr ?_⟩
  · rw [exec_drw_of_gt s x y n h0 (by omega), pc0_eq]
  · have hI : (advance s).I = s.I := rfl
    rw [exec_drw_of_gt (advance s) x y n h0 (by rw [hI]; omega), pc0_advance, hI]

end Sys2Proof.Machine

/-!
The statements about the keypad and the timers (44_keypad_timer.md): the two skips behind their key check, the wait for
a key, and the timer transfers.
-/

namespace Sys2Proof.Machine

/-! ### The skips -/

/-- A register that names a key lets its instruction run with that key. -/
theorem withKey_of_eq (i : Instr) {x : Reg} {s : State} (f : Fin 16 → Result) {k : Fin 16}
    (hk : (s.reg x).toNat = k.val) : withKey i x s f = f k := by
  rcases withKey_cases i x s f with ⟨hgt, -⟩ | ⟨hlt, e⟩
  · omega
  · exact e.trans (congrArg f (Fin.ext hk))

/-- A register above 15 names no key and stops its instruction (R190, D17); the error names the instruction's own
address. -/
theorem withKey_of_gt (i : Instr) {x : Reg} {s : State} (f : Fin 16 → Result) (h : 15 < (s.reg x).toNat) :
    withKey i x s f = .fault (.memoryBounds (s.reg x).toNat (s.pc - 2) (some (encode i))) := by
  rcases withKey_cases i x s f with ⟨-, e⟩ | ⟨hlt, -⟩
  · rw [e, pc0_eq]
  · omega

/-- Settles O55: behind the key check, the two instructions are skips on opposite conditions. -/
theorem keySkipsReadTheNamedKey : Obligations.KeySkipsReadTheNamedKey := by
  intro x s
  refine ⟨fun k hk => ⟨?_, ?_⟩, fun hgt => ⟨withKey_of_gt _ _ hgt, withKey_of_gt _ _ hgt⟩⟩
  · exact ⟨_, withKey_of_eq _ _ hk, skipIf_onlyChanges s, skipIf_pc_of_true s, skipIf_pc_of_false s⟩
  · refine ⟨_, withKey_of_eq _ _ hk, skipIf_onlyChanges s, fun hup => ?_, fun hdown => ?_⟩
    · exact skipIf_pc_of_true s (by rw [hup]; rfl)
    · exact skipIf_pc_of_false s (by rw [hdown]; rfl)

/-! ### The wait for a key -/

/-- A key that is down with no lower one down is the one found. -/
theorem lowestKey_of_least {K : Vector Bool 16} {k : Fin 16} (hdown : K[k] = true)
    (hleast : ∀ j : Fin 16, j < k → K[j] = false) : lowestKey K = some k := by
  cases hfound : lowestKey K with
  | none => exact absurd hdown (by rw [lowestKey_eq_none.mp hfound k]; exact Bool.false_ne_true)
  | some m =>
    obtain ⟨hm, hmleast⟩ := lowestKey_eq_some hfound
    have hmk : ¬ m < k := fun hlt => Bool.false_ne_true ((hleast m hlt).symm.trans hm)
    have hkm : ¬ k < m := fun hlt => Bool.false_ne_true ((hmleast k hlt).symm.trans hdown)
    rw [le_antisymm (not_lt.mp hkm) (not_lt.mp hmk)]

theorem exec_ldVxK_of_some (x : Reg) {s : State} {k : Fin 16} (hk : lowestKey s.K = some k) :
    exec (.ldVxK x) s = .next (s.setV x (trunc8 k.val)) := by
  simp only [exec, execLdVxK, hk]

theorem exec_ldVxK_of_none (x : Reg) {s : State} (hnone : lowestKey s.K = none) :
    exec (.ldVxK x) s = .next (rewind s) := by
  simp only [exec, execLdVxK, hnone]

/-- The rewind undoes the Advance step (R92, R194). -/
theorem rewind_advance (s : State) : rewind (advance s) = s := by
  rw [rewind, pc0_advance]; rfl

/-- With no key down, `FX0A` is a full cycle that changes the timers alone. -/
theorem step_ldVxK_of_none {s : State} {x : Reg} (hr : s.runs (.ldVxK x)) (hnone : lowestKey s.K = none) :
    step s = .next (timerTick s) := by
  rw [step_of_runs hr, exec_ldVxK_of_none x (s := advance s) hnone, rewind_advance]; rfl

/-- Settles O56: by whether a key is found; a key index is below 256, so it is not cut. -/
theorem keyWaitTakesTheLowestKeyOrWaits : Obligations.KeyWaitTakesTheLowestKeyOrWaits := by
  intro x s
  refine ⟨fun k hdown hleast => ?_, fun hup => ?_, fun hup hr => ?_⟩
  · refine ⟨_, exec_ldVxK_of_some x (lowestKey_of_least hdown hleast), ?_, s.setV_regsKept x _, s.setV_onlyChanges x _⟩
    rw [State.setV_reg_self, trunc8_toNat]; omega
  · exact ⟨_, exec_ldVxK_of_none x (lowestKey_eq_none.mpr hup), pc0_eq s, s.setPc_onlyChanges _⟩
  · exact ⟨_, step_ldVxK_of_none hr (lowestKey_eq_none.mpr hup), rfl⟩

/-! ### The timer transfers -/

theorem State.setDT_onlyChanges (s : State) (b : Byte) : OnlyChanges [.DT] s (s.setDT b) :=
  (onlyChanges_refl [.DT] s).setDT List.mem_cons_self b

theorem State.setST_onlyChanges (s : State) (b : Byte) : OnlyChanges [.ST] s (s.setST b) :=
  (onlyChanges_refl [.ST] s).setST List.mem_cons_self b

/-- Settles O57: each transfer is one update, of a register or of a timer. -/
theorem timerTransfers : Obligations.TimerTransfers := by
  intro x s
  refine ⟨?_, ?_, ?_⟩
  · exact ⟨_, rfl, s.setV_reg_self x _, s.setV_regsKept x _, s.setV_onlyChanges x _⟩
  · exact ⟨_, rfl, s.setDT_DT _, s.setDT_onlyChanges _⟩
  · exact ⟨_, rfl, s.setST_ST _, s.setST_onlyChanges _⟩

end Sys2Proof.Machine

/-!
The statements about exceptions (60_exceptions.md): which instructions raise an error in Execute, what an aborted cycle
leaves, the cycle of an unknown word, the timer tick, and that no instruction sees the sound timer.
-/

namespace Sys2Proof.Machine

/-! ### No instruction sees the sound timer -/

/-- `FX18` overwrites the sound timer, so a step of it goes to one state whatever the timer was. -/
theorem step_ldStVx_put {s : State} {x : Reg} (hr : s.runs (.ldStVx x)) (b : Byte) :
    step ((Hidden.ST b).put s) = step s := by
  rw [step_of_runs hr, step_of_runs ((Hidden.ST b).runs_put s hr)]; rfl

/-- Noninterference of a step: another value of the sound timer changes at most the sound timer of the next state. -/
theorem step_soundTimer (s : State) (b : Byte) :
    step ((Hidden.ST b).put s) = step s ∨
      step ((Hidden.ST b).put s) = onNext (Hidden.ST (tick b)).put (step s) := by
  by_cases hst : ∃ x, s.runs (.ldStVx x)
  · obtain ⟨x, hr⟩ := hst
    exact .inl (step_ldStVx_put hr b)
  · refine .inr ((Hidden.ST b).step_put s fun i hr => ?_)
    cases i
    case ldStVx x => exact absurd ⟨x, hr⟩ hst
    all_goals rfl

/-- Settles O25: with another sound timer a step goes to the same state, or to one with another sound timer. -/
theorem soundTimerIsNotObservable : Obligations.SoundTimerIsNotObservable := by
  intro s b
  refine ⟨fun t ht => ?_, fun e he => ?_⟩
  · rcases step_soundTimer s b with hst | hst <;> rw [ht] at hst
    · exact ⟨t.ST, hst⟩
    · exact ⟨tick b, hst⟩
  · rcases step_soundTimer s b with hst | hst <;> rw [he] at hst <;> exact hst

/-! ### The cycle of an unknown word -/

/-- Settles O13: the no-op is the Advance step, the tick and one report. -/
theorem unknownWordIsAReportedNoOp : Obligations.UnknownWordIsAReportedNoOp := by
  intro s w hf hd
  have hpc : (advance s).pc = s.pc + 2 := by rw [advance_eq, State.setPc_pc]
  have hframe : OnlyChanges [.pc, .DT, .ST, .reports] s ((timerTick (advance s)).record ⟨s.pc, w⟩) :=
    ((((onlyChanges_refl _ s).setPc (by decide) _).setDT (by decide) _).setST (by decide) _).record (by decide) _
  exact ⟨_, step_of_unknown hf hd, hpc, tick_toNat s.DT, tick_toNat s.ST, rfl, hframe⟩

/-! ### The timer tick -/

/-- A timer that Advance and the launch record leave alone is ticked once by a step whose instruction, if it runs one,
keeps it in Execute. -/
theorem step_ticks (f : State → Byte) {s t : State} (hadvance : f (advance s) = f s)
    (htick : ∀ u, f (timerTick u) = tick (f u)) (hrecord : ∀ u r, f (u.record r) = f u)
    (hexec : ∀ i u, s.runs i → exec i (advance s) = .next u → f u = f (advance s)) (h : step s = .next t) :
    (f t).toNat = (f s).toNat - 1 := by
  rw [← tick_toNat]
  rcases step_next_cases h with ⟨w, -, -, rfl⟩ | ⟨i, u, hr, he, rfl⟩
  · rw [hrecord, htick, hadvance]
  · rw [htick, hexec i u hr he, hadvance]

/-- Settles O15: the cycle of an instruction that writes a timer ticks the value written, and any other the old one. -/
theorem timersTickOncePerCompletedCycle : Obligations.TimersTickOncePerCompletedCycle := by
  intro s t h
  refine ⟨fun x hr => ?_, fun hdt => ?_, fun x hr => ?_, fun hst => ?_⟩
  · obtain ⟨u, he, rfl⟩ := step_next_of_runs hr h
    cases he
    exact tick_toNat (s.reg x)
  · refine step_ticks State.DT rfl (fun _ => rfl) (fun _ _ => rfl) (fun i u hr he => (exec_writes he).DT ?_) h
    rintro x rfl; exact hdt x hr
  · obtain ⟨u, he, rfl⟩ := step_next_of_runs hr h
    cases he
    exact tick_toNat (s.reg x)
  · refine step_ticks State.ST rfl (fun _ => rfl) (fun _ _ => rfl) (fun i u hr he => (exec_writes he).ST ?_) h
    rintro x rfl; exact hst x hr

/-! ### The errors of Execute -/

/-- The error of a window at `I` that leaves the memory: the first address outside is the higher of `I` and 0x1000. -/
def State.windowError (s : State) (i : Instr) : Fault :=
  .memoryBounds (max s.I.toNat 4096) s.pc0 (some (encode i))

/-- The table of errors per instruction (R212): `i` raises `e` in Execute. -/
def State.Raises (s : State) (i : Instr) (e : Fault) : Prop :=
  match i with
  | .ret => s.sp = 0 ∧ e = .stackUnderflow s.pc0 (encode i)
  | .call _ => s.sp = 16 ∧ e = .stackOverflow s.pc0 (encode i)
  | .drw _ _ n => (0 < n.val ∧ 0xFFF < s.I.toNat + n.val - 1) ∧ e = s.windowError i
  | .ldBVx _ => 0xFFF < s.I.toNat + 2 ∧ e = s.windowError i
  | .ldMemIVx x | .ldVxMemI x => 0xFFF < s.I.toNat + x.val ∧ e = s.windowError i
  | .skp x | .sknp x => 15 < (s.reg x).toNat ∧ e = .memoryBounds (s.reg x).toNat s.pc0 (some (encode i))
  | _ => False

/-- When a window check stops its instruction. -/
theorem withWindow_fault_iff {i : Instr} {len : Nat} {s u : State} {e : Fault} :
    withWindow i len s (.next u) = .fault e ↔ (0 < len ∧ 0xFFF < s.I.toNat + len - 1) ∧ e = s.windowError i := by
  rcases withWindow_cases i len s (.next u) with ⟨h0, hgt, hw⟩ | ⟨hle, hw⟩ <;> rw [hw]
  · have hout : 0 < len ∧ 0xFFF < s.I.toNat + len - 1 := ⟨h0, by omega⟩
    rw [Host.Outcome.fault.injEq, and_iff_right hout, eq_comm]; rfl
  · exact ⟨nofun, fun ⟨⟨h0, hout⟩, _⟩ => by omega⟩

/-- When a key check stops its instruction. -/
theorem withKey_fault_iff {i : Instr} {x : Reg} {s : State} {f : Fin 16 → State} {e : Fault} :
    withKey i x s (fun k => .next (f k)) = .fault e ↔
      15 < (s.reg x).toNat ∧ e = .memoryBounds (s.reg x).toNat s.pc0 (some (encode i)) := by
  rcases withKey_cases i x s (fun k => .next (f k)) with ⟨hgt, hk⟩ | ⟨hlt, hk⟩ <;> rw [hk]
  · rw [Host.Outcome.fault.injEq, and_iff_right hgt, eq_comm]
  · exact ⟨nofun, fun ⟨hgt, _⟩ => by omega⟩

theorem exec_ret_fault_iff {s : State} {e : Fault} :
    exec .ret s = .fault e ↔ s.sp = 0 ∧ e = .stackUnderflow s.pc0 (encode .ret) := by
  by_cases h0 : s.sp.val = 0
  · rw [exec_ret_of_empty h0, Host.Outcome.fault.injEq, and_iff_right (Fin.ext h0), eq_comm]
  · rw [exec_ret_of_pos h0]
    exact ⟨nofun, fun ⟨hsp, _⟩ => absurd (congrArg Fin.val hsp) h0⟩

theorem exec_call_fault_iff {nnn : Addr12} {s : State} {e : Fault} :
    exec (.call nnn) s = .fault e ↔ s.sp = 16 ∧ e = .stackOverflow s.pc0 (encode (.call nnn)) := by
  by_cases hlt : s.sp.val < 16
  · rw [exec_call_of_lt nnn hlt]
    exact ⟨nofun, fun ⟨hsp, _⟩ => absurd hlt (by rw [hsp]; decide)⟩
  · have hfull : s.sp = 16 := Fin.ext (show s.sp.val = 16 by omega)
    rw [exec_call_of_full nnn hlt, Host.Outcome.fault.injEq, and_iff_right hfull, eq_comm]

/-- Execute stops exactly with the errors of the table. -/
theorem exec_fault_iff {i : Instr} {s : State} {e : Fault} : exec i s = .fault e ↔ s.Raises i e := by
  cases i
  case ret => exact exec_ret_fault_iff
  case call nnn => exact exec_call_fault_iff
  case drw => exact withWindow_fault_iff
  -- Their windows are never empty, and the table names the last address.
  case ldBVx | ldMemIVx | ldVxMemI => exact withWindow_fault_iff.trans (by simp [State.Raises])
  case skp | sknp => exact withKey_fault_iff
  case ldVxK =>
    simp only [exec, execLdVxK]
    split <;> exact ⟨nofun, False.elim⟩
  -- The other instructions complete from every state.
  all_goals exact ⟨nofun, False.elim⟩

/-- Settles O17: each row of the table names one error, so some error is raised exactly where the row's condition
holds. -/
theorem instructionsFaultOnlyAsListed : Obligations.InstructionsFaultOnlyAsListed := by
  intro i s
  simp only [exec_fault_iff]
  cases i <;> simp only [State.Raises, exists_and_left, exists_eq, and_true, exists_false]

/-! ### An aborted cycle -/

/-- No error of the table reads the keypad or the next random byte (R216). -/
theorem exec_fault_keys_draws {i : Instr} {s : State} {e : Fault} (h : exec i s = .fault e) (keys : Vector Bool 16)
    (draws : Nat) : exec i { s with K := keys, draws := draws } = .fault e := by
  have hraises : s.Raises i e := exec_fault_iff.mp h
  exact exec_fault_iff.mpr (by cases i <;> exact hraises)

/-- A step that stops did so at the fetch or in Execute. -/
theorem step_fault_cases {s : State} {e : Fault} (h : step s = .fault e) :
    (0xFFF ≤ s.pc.toNat ∧ e = .memoryBounds (max s.pc.toNat 4096) s.pc none) ∨
    (∃ i, s.runs i ∧ exec i (advance s) = .fault e) := by
  rcases step_cases s with ⟨hpc, hs⟩ | ⟨w, -, -, hs⟩ | ⟨i, hr, hs⟩ <;> rw [hs] at h
  · cases h; exact .inl ⟨hpc, rfl⟩
  · cases h
  · refine .inr ⟨i, hr, ?_⟩
    cases he : exec i (advance s) <;> rw [he] at h <;> cases h
    rfl

/-- The cycle of a fetch outside the memory reports its error and leaves the state as it was (R91, R215). -/
theorem cycle_of_outOfRange {s : State} (h : 0xFFF ≤ s.pc.toNat) :
    cycle s = (s, .aborted (.memoryBounds (max s.pc.toNat 4096) s.pc none)) := by
  rcases fetch_cases s with ⟨hin, -⟩ | ⟨-, hf⟩
  · omega
  · simp only [cycle, hf]

/-- Settles O16, for an error of the fetch and for an error of Execute. -/
theorem abortedCycleChangesNothingAndRepeats : Obligations.AbortedCycleChangesNothingAndRepeats := by
  intro s e h
  rcases step_fault_cases h with ⟨hpc, rfl⟩ | ⟨i, hr, he⟩
  · exact ⟨cycle_of_outOfRange hpc, fun keys draws => step_of_outOfRange hpc⟩
  · refine ⟨cycle_of_runs_of_fault hr he, fun keys draws => ?_⟩
    have hr' : State.runs { s with K := keys, draws := draws } i := runs_congr rfl rfl rfl hr
    have hadvance : advance { s with K := keys, draws := draws } = { advance s with K := keys, draws := draws } := rfl
    rw [step_of_runs hr', hadvance, exec_fault_keys_draws he keys draws]; rfl

end Sys2Proof.Machine

/-!
The statements about reset and hazards (70_reset_and_hazards.md): what construction leaves, the load of a program, and a
program at rest.
-/

namespace Sys2Proof.Machine

/-! ### The content at construction -/

theorem Memory.read_nil (a : Nat) : read [] a = constructed a := rfl

theorem Memory.constructed_font {j : Nat} (hj : j < 80) : constructed (0x050 + j) = Config.font.getD j 0 := by
  rw [constructed, if_pos ⟨Nat.le_add_right _ _, Nat.add_lt_add_left hj _⟩, Nat.add_sub_cancel_left]

theorem Memory.constructed_outside_font {a : Nat} (ha : a < 0x050 ∨ 0x0A0 ≤ a) : constructed a = 0 :=
  if_neg fun ⟨hlo, hhi⟩ => ha.elim hlo.not_gt hhi.not_ge

/-- The default fontset is what memory holds at construction, so writing it there lists nothing. -/
theorem Memory.writeBytes_font : Memory.writeBytes [] Config.fontBase Config.font = [] := by
  have hfit : Config.fontBase + Config.font.length ≤ 4096 := by decide
  refine ext_of_wf (wf_writeBytes wf_nil hfit) wf_nil fun a => ?_
  have hlen : Config.font.length = Config.fontLen := by decide
  rw [read_writeBytes wf_nil hfit, hlen, read_nil, constructed]
  split <;> rfl

/-- Settles O1: memory lists nothing at reset, so it reads as constructed. -/
theorem resetLeavesConstructionState : Obligations.ResetLeavesConstructionState :=
  ⟨rfl, rfl, rfl, rfl, rfl, fun j => Vector.getElem_replicate j.isLt, fun j => Vector.getElem_replicate j.isLt,
    fun k => Vector.getElem_replicate k.isLt, Framebuffer.pixel_clear, fun j => Memory.constructed_font j.isLt,
    fun _ => Memory.constructed_outside_font, rfl⟩

/-- Settles O2: at reset memory lists nothing and no report is recorded. -/
theorem invariantHoldsAtReset : Obligations.InvariantHoldsAtReset := ⟨Memory.wf_nil, nofun⟩

/-! ### Runs of bytes that the host places in memory -/

theorem Memory.read_writeBytes_getElem {m : Memory} {a : Nat} {bytes : List Byte} (hwf : m.wf = true)
    (hfit : a + bytes.length ≤ 4096) {k : Nat} (hk : k < bytes.length) :
    (m.writeBytes a bytes).read (a + k) = bytes[k] :=
  (read_writeBytes_inside hwf hfit hk).trans (List.getD_eq_getElem bytes 0 hk)

theorem imageFits_iff {image : List Byte} : imageFits image = true ↔ image.length ≤ 3584 := decide_eq_true_iff

theorem fontWellFormed_iff {font : List Byte} : fontWellFormed font = true ↔ font.length = 80 := decide_eq_true_iff

/-! ### The load of a program -/

theorem loadProgram_of_le {image : List Byte} (s : State) (h : image.length ≤ 3584) :
    loadProgram image s = .next (s.setM (s.M.writeBytes 0x200 image)) := if_pos (imageFits_iff.mpr h)

theorem loadProgram_of_gt {image : List Byte} (s : State) (h : 3584 < image.length) :
    loadProgram image s = .fault (.loadError image.length) := if_neg fun hfits => h.not_ge (imageFits_iff.mp hfits)

/-- Settles O58: an image of at most 3584 bytes ends inside the memory, so its load is one write of its bytes. -/
theorem loadProgramCopiesTheImage : Obligations.LoadProgramCopiesTheImage := by
  intro image s hwf
  refine ⟨fun hle => ?_, loadProgram_of_gt s⟩
  have hfit : 0x200 + image.length ≤ 4096 := by omega
  exact ⟨_, loadProgram_of_le s hle, fun _ hj => Memory.read_writeBytes_getElem hwf hfit hj,
    fun _ ha => Memory.read_writeBytes_outside hwf hfit ha, s.setM_onlyChanges _⟩

/-! ### Construction -/

/-- With the defaults construction is the reset state: its fontset is already what memory reads as. -/
theorem construct_default : construct Params.default Config.font .zero = State.reset :=
  congrArg State.reset.setM Memory.writeBytes_font

theorem construct_onlyChanges (params : Params) (font : List Byte) (draw : State) :
    OnlyChanges [.pc, .M, .params, .reports] draw (construct params font (.arbitrary draw)) := by
  intro p hp
  have hsame : p.same draw draw := onlyChanges_refl [] draw p List.not_mem_nil
  cases p
  case pc | M | params | reports => exact absurd (by decide) hp
  all_goals exact hsame

/-- Settles O59: the fontset is one write of its 80 bytes into the memory of the fill. -/
theorem constructionFixesPcAndFont : Obligations.ConstructionFixesPcAndFont := by
  refine ⟨construct_default, fun params font draw hfont hwf => ?_⟩
  have hlen : font.length = 80 := fontWellFormed_iff.mp hfont
  have hfit : 0x050 + font.length ≤ 4096 := by omega
  exact ⟨rfl, fun _ hj => Memory.read_writeBytes_getElem hwf hfit hj,
    fun _ ha => Memory.read_writeBytes_outside hwf hfit (by omega), rfl, construct_onlyChanges params font draw⟩

/-! ### A program at rest -/

theorem timerTick_onlyChanges (s : State) : OnlyChanges [.DT, .ST] s (timerTick s) :=
  ((onlyChanges_refl [.DT, .ST] s).setDT (by decide) _).setST (by decide) _

/-- The tick leaves what the next fetch and decode read. -/
theorem State.atRest_timerTick {s : State} (h : s.atRest) : (timerTick s).atRest := by
  obtain ⟨nnn, hr, hself⟩ := h
  exact ⟨nnn, runs_congr rfl rfl rfl hr, hself⟩

/-- Settles O60: the cycle of a jump to itself is the tick. -/
theorem atRestOnlyTheTimersChange : Obligations.AtRestOnlyTheTimersChange := by
  intro s hrest
  have hstays : (timerTick s).atRest := State.atRest_timerTick hrest
  obtain ⟨nnn, hr, hself⟩ := hrest
  exact ⟨timerTick s, step_selfJump hr hself, timerTick_onlyChanges s, tick_toNat s.DT, tick_toNat s.ST, hstays⟩

end Sys2Proof.Machine

/-!
The statements about two instructions in a row, of which the second undoes the first (95_test_vectors.md): a return
after a call (W7), a load of registers after their store (W4), and the same draw again (W8).
-/

namespace Sys2Proof.Machine

/-- Settles O32: the entry that the call pushed is the top entry of the return. -/
theorem returnUndoesCall : Obligations.ReturnUndoesCall := by
  intro nnn s t pc hcall
  obtain ⟨hlt, rfl⟩ := exec_call_next hcall
  exact ⟨_, exec_ret_of_top (j := ⟨s.sp.val, hlt⟩) rfl, Vector.getElem_set_self hlt, rfl⟩

/-- Settles O49: the store keeps `I`, so the load reads the window that the store wrote. -/
theorem storeThenLoadRestoresRegisters : Obligations.StoreThenLoadRestoresRegisters := by
  intro x s t V' hwf hstore
  obtain ⟨hlen, -⟩ := withWindow_next hstore
  have hin : s.I.toNat + x.val ≤ 0xFFF := by omega
  obtain ⟨t', hstore', hstored, -, hframe⟩ := (storeRegistersWritesTheWindow x s hwf).1 hin
  obtain rfl : t = t' := Host.Outcome.next.inj (hstore.symm.trans hstore')
  have hI : t.I = s.I := hframe .I (by decide)
  rw [← hI] at hin hstored
  obtain ⟨u, hload, hloaded, hkept, -⟩ := (loadRegistersReadsTheWindow x { t with V := V' }).1 hin
  exact ⟨u, hload, fun j hj => (hloaded j hj).trans (hstored j hj), hkept⟩

/-- A draw whose origin registers are not `VF` covers the same pixels when it is repeated: it keeps the edge mode, `I`,
every byte of memory and the origin. -/
theorem State.drawHits_of_draw_frame {s t : State} {x y : Reg} (n : Fin 16) (hx : x ≠ VF) (hy : y ≠ VF)
    (hregs : RegsKeptBut [VF] s t) (hframe : OnlyChanges [.V, .FB] s t) : t.drawHits x y n = s.drawHits x y n := by
  have hparams : t.params = s.params := hframe .params (by decide)
  have hI : t.I = s.I := hframe .I (by decide)
  have hM : ∀ a, t.M.read a = s.M.read a := hframe .M (by decide)
  have hVx : t.reg x = s.reg x := hregs x (mt List.mem_singleton.mp hx)
  have hVy : t.reg y = s.reg y := hregs y (mt List.mem_singleton.mp hy)
  funext py px
  simp only [State.drawHits, SpriteHits, hparams, hI, hM, hVx, hVy]

/-- Settles O53: both draws toggle the same pixels, and a covered pixel is set before the second exactly where it was
clear before the first. -/
theorem drawingTwiceRestoresTheFramebuffer : Obligations.DrawingTwiceRestoresTheFramebuffer := by
  intro x y n s t hx hy hdraw
  obtain ⟨hlen, -⟩ := withWindow_next hdraw
  have hin : n.val = 0 ∨ s.I.toNat + n.val - 1 ≤ 0xFFF := by omega
  obtain ⟨t', hdraw', htoggled, hkept, -, -, hregs, hframe⟩ := drawXorsTheSpriteAndReportsCollision x y n s hin
  obtain rfl : t = t' := Host.Outcome.next.inj (hdraw.symm.trans hdraw')
  have hI : t.I = s.I := hframe .I (by decide)
  rw [← hI] at hin
  obtain ⟨u, hagain, htoggled', hkept', hset, hclear, -, -⟩ := drawXorsTheSpriteAndReportsCollision x y n t hin
  rw [State.drawHits_of_draw_frame n hx hy hregs hframe] at htoggled' hkept' hset hclear
  refine ⟨u, hagain, Framebuffer.ext_pixel fun py px => ?_, fun ⟨py, px, hhit, hoff⟩ => ?_, fun hon => ?_⟩
  · by_cases hhit : s.drawHits x y n py px
    · rw [htoggled' py px hhit, htoggled py px hhit, Bool.not_not]
    · rw [hkept' py px hhit, hkept py px hhit]
  · exact hset ⟨py, px, hhit, by rw [htoggled py px hhit, hoff, Bool.not_false]⟩
  · exact hclear fun py px hhit => by rw [htoggled py px hhit, hon py px hhit, Bool.not_true]

end Sys2Proof.Machine
